-- ==== Sys2Proof/Word.lean ====
section
/-! DEFINITION. The value widths of the block: every value is an unsigned integer of a stated width
(00_scope.md R9; 10_state.md R39), and every stream element is a byte (00_scope.md R7). -/

namespace Sys2Proof

/-- `u8`: a stream element, a message type, a length byte, a PIN digit. -/
abbrev Byte := BitVec 8

/-- `u16`: a CRC value or a packet's length field. -/
abbrev Word16 := BitVec 16

/-- `u32`: a record key, a card number or a packed PIN. -/
abbrev Word32 := BitVec 32

/-- A command packet: the byte sequence the host presents to the command input (30_encoding.md R63). -/
abbrev Packet := List Byte

end Sys2Proof
end

