-- ==== Sys2Proof/Machine/ByteOrder.lean ====
section
/-! DEFINITION. Byte order, decided once: every multi-byte field is little-endian (20_memory.md R42, R45), assembled
and split only by these functions (00_scope.md R10; 30_encoding.md R67). -/

namespace Sys2Proof

/-- `le16(v) = [v[7:0], v[15:8]]` (00_scope.md R10). -/
def le16 (v : Word16) : List Byte := [v.extractLsb' 0 8, v.extractLsb' 8 8]

/-- `le32(v) = [v[7:0], v[15:8], v[23:16], v[31:24]]` (00_scope.md R10). -/
def le32 (v : Word32) : List Byte :=
  [v.extractLsb' 0 8, v.extractLsb' 8 8, v.extractLsb' 16 8, v.extractLsb' 24 8]

/-- The `u16` whose low byte is `b0` (30_encoding.md R67). -/
def fromLe16 (b0 b1 : Byte) : Word16 := b1 ++ b0

/-- `from_le32`: the `u32` whose bytes from the lowest are `b0` to `b3` (00_scope.md R10). -/
def fromLe32 (b0 b1 b2 b3 : Byte) : Word32 := b3 ++ b2 ++ b1 ++ b0

end Sys2Proof
end

