-- ==== Sys2Proof/Syntax.lean ====
section
/-! DEFINITION. The operations of the block, one constructor per row of opcode_table.json (30_encoding.md R68), each
with the operands its packet format carries (R64 to R67). -/

namespace Sys2Proof

/-- The five bytes `rec[0..4]` of format D, in packet order: they reach REC.DEC as bytes and are split there
(30_encoding.md R67). -/
structure RecBytes where
  b0 : Byte
  b1 : Byte
  b2 : Byte
  b3 : Byte
  b4 : Byte
  deriving DecidableEq, Repr

/-- The record bytes as a byte sequence. -/
def RecBytes.toList (r : RecBytes) : List Byte := [r.b0, r.b1, r.b2, r.b3, r.b4]

/-- The twenty-three operations (30_encoding.md R68). -/
inductive Instr where
  /-- CRC.CLR, opcode `0x00`, format N (41_crc.md R82). -/
  | crcClr
  /-- CRC.UPD b, opcode `0x01`, format B (41_crc.md R83). -/
  | crcUpd (b : Byte)
  /-- CRC.RD, opcode `0x02`, format N (41_crc.md R84). -/
  | crcRd
  /-- CRC.BLK data, opcode `0x03`, format V (41_crc.md R85). -/
  | crcBlk (data : List Byte)
  /-- ESC.ENC b, opcode `0x10`, format B (42_escape.md R95). -/
  | escEnc (b : Byte)
  /-- ESC.DEC b, opcode `0x11`, format B (42_escape.md R97). -/
  | escDec (b : Byte)
  /-- ESC.FLUSH, opcode `0x12`, format N (42_escape.md R98). -/
  | escFlush
  /-- ESC.CLR, opcode `0x13`, format N (42_escape.md R99). -/
  | escClr
  /-- ESC.ENCB data, opcode `0x14`, format V (42_escape.md R96). -/
  | escEncb (data : List Byte)
  /-- ESC.DECB data, opcode `0x15`, format V (42_escape.md R101). -/
  | escDecb (data : List Byte)
  /-- FRX.BYTE b, opcode `0x20`, format B (43_frame_receiver.md R106). -/
  | frxByte (b : Byte)
  /-- FRX.EOS, opcode `0x21`, format N (43_frame_receiver.md R115). -/
  | frxEos
  /-- FRX.TMO, opcode `0x22`, format N (43_frame_receiver.md R116). -/
  | frxTmo
  /-- FRX.CLR, opcode `0x23`, format N (43_frame_receiver.md R117). -/
  | frxClr
  /-- PIN.CLR, opcode `0x30`, format N (45_access_codec.md R143). -/
  | pinClr
  /-- PIN.DIG d, opcode `0x31`, format B (45_access_codec.md R144). -/
  | pinDig (d : Byte)
  /-- PIN.RD, opcode `0x32`, format N (45_access_codec.md R145). -/
  | pinRd
  /-- PIN.PACK data, opcode `0x33`, format V (45_access_codec.md R146). -/
  | pinPack (data : List Byte)
  /-- PIN.UNPK w, opcode `0x34`, format W (45_access_codec.md R147). -/
  | pinUnpk (w : Word32)
  /-- KEY.XOR a, b, opcode `0x35`, format X (45_access_codec.md R148). -/
  | keyXor (a b : Word32)
  /-- REC.ENC flags, ppin, card, ckey, opcode `0x36`, format R (45_access_codec.md R150). -/
  | recEnc (flags : Byte) (ppin card ckey : Word32)
  /-- REC.DEC rec, hsel, hint, opcode `0x37`, format D (45_access_codec.md R155). -/
  | recDec (record : RecBytes) (hsel : Byte) (hint : Word32)
  /-- FTX.SEND type, payload, opcode `0x40`, format S (44_frame_transmitter.md R131). -/
  | ftxSend (type : Byte) (payload : List Byte)
  deriving DecidableEq, Repr

end Sys2Proof
end

