-- ==== Sys2Proof/WellFormed.lean ====
section
/-! DEFINITION. When an operation can be written as a command packet: the data of formats V and S is counted by a `u16`
length field (30_encoding.md R64, R70), so it has at most 65535 bytes (70_reset_and_hazards.md R232). Every other
operand fills its field exactly. A payload of 256 to 65535 bytes is well-formed: FTX.SEND answers `PayloadTooLarge` to it
(R70), and digit values over 9 and `hsel` over 2 are well-formed operands their operations refuse (R69). `exec` needs no
well-formedness (log 16). -/

namespace Sys2Proof

/-- The largest byte count a `u16` length field holds. -/
def maxBlock : Nat := 65535

/-- The operation's operands fit its packet format. -/
def Instr.wellFormed : Instr → Bool
  | .crcClr => true
  | .crcUpd _ => true
  | .crcRd => true
  | .crcBlk data => decide (data.length ≤ maxBlock)
  | .escEnc _ => true
  | .escDec _ => true
  | .escFlush => true
  | .escClr => true
  | .escEncb data => decide (data.length ≤ maxBlock)
  | .escDecb data => decide (data.length ≤ maxBlock)
  | .frxByte _ => true
  | .frxEos => true
  | .frxTmo => true
  | .frxClr => true
  | .pinClr => true
  | .pinDig _ => true
  | .pinRd => true
  | .pinPack data => decide (data.length ≤ maxBlock)
  | .pinUnpk _ => true
  | .keyXor _ _ => true
  | .recEnc _ _ _ _ => true
  | .recDec _ _ _ => true
  | .ftxSend _ payload => decide (payload.length ≤ maxBlock)

/-- The operation can be written as a command packet. -/
abbrev Instr.WellFormed (i : Instr) : Prop := i.wellFormed = true

end Sys2Proof
end

