-- ==== Sys2Proof/Decode.lean ====
section
/-! DEFINITION. The command decoder and, after it, the encoder (30_encoding.md Part B, R63 to R70). The decoder is total on
any byte sequence and rejects by name what 30_encoding.md R69 and 60_exceptions.md R203 call illegal or malformed. -/

namespace Sys2Proof

/-- The eight command formats (30_encoding.md R64). -/
inductive Format where
  | n | b | w | x | v | s | r | d
  deriving DecidableEq, Repr

/-- One row of the opcode map (30_encoding.md R68). -/
structure OpcodeRow where
  opcode : Byte
  mnemonic : String
  format : Format
  deriving DecidableEq, Repr

/-- The opcode map (30_encoding.md R68): the high nibble is the unit, the low nibble the operation (R63). -/
def opcodeMap : List OpcodeRow :=
  [⟨0x00, "CRC.CLR", .n⟩, ⟨0x01, "CRC.UPD", .b⟩, ⟨0x02, "CRC.RD", .n⟩, ⟨0x03, "CRC.BLK", .v⟩,
   ⟨0x10, "ESC.ENC", .b⟩, ⟨0x11, "ESC.DEC", .b⟩, ⟨0x12, "ESC.FLUSH", .n⟩, ⟨0x13, "ESC.CLR", .n⟩,
   ⟨0x14, "ESC.ENCB", .v⟩, ⟨0x15, "ESC.DECB", .v⟩,
   ⟨0x20, "FRX.BYTE", .b⟩, ⟨0x21, "FRX.EOS", .n⟩, ⟨0x22, "FRX.TMO", .n⟩, ⟨0x23, "FRX.CLR", .n⟩,
   ⟨0x30, "PIN.CLR", .n⟩, ⟨0x31, "PIN.DIG", .b⟩, ⟨0x32, "PIN.RD", .n⟩, ⟨0x33, "PIN.PACK", .v⟩,
   ⟨0x34, "PIN.UNPK", .w⟩, ⟨0x35, "KEY.XOR", .x⟩, ⟨0x36, "REC.ENC", .r⟩, ⟨0x37, "REC.DEC", .d⟩,
   ⟨0x40, "FTX.SEND", .s⟩]

/-- The format an opcode byte selects, if it is one of the twenty-three (30_encoding.md R63, R68). -/
def formatOf (op : Byte) : Option Format :=
  (opcodeMap.find? fun row => row.opcode == op).map (·.format)

/-- The packet length a format requires, given the packet's second to fourth bytes, which hold the length field of
formats V and S (30_encoding.md R64, R70). -/
def Format.packetLength : Format → (b1 b2 b3 : Byte) → Nat
  | .n, _, _, _ => 1
  | .b, _, _, _ => 2
  | .w, _, _, _ => 5
  | .x, _, _, _ => 9
  | .v, b1, b2, _ => 3 + (fromLe16 b1 b2).toNat
  | .s, _, b2, b3 => 4 + (fromLe16 b2 b3).toNat
  | .r, _, _, _ => 14
  | .d, _, _, _ => 11

/-- Why the decoder rejects a packet (30_encoding.md R69; 60_exceptions.md R203). All four end in `IllegalOp`. -/
inductive Reject where
  /-- No opcode byte. -/
  | emptyPacket
  /-- The opcode byte is not in the opcode map. -/
  | unknownOpcode
  /-- Shorter than the format requires, or fewer data bytes than the length field announces. -/
  | tooShort
  /-- Bytes left over after the format's length. -/
  | tooLong
  deriving DecidableEq, Repr

/-- Format N: nothing after the opcode. -/
def decodeN (i : Instr) : List Byte → Except Reject Instr
  | [] => .ok i
  | _ :: _ => .error .tooLong

/-- Format B: one byte. -/
def decodeB (mk : Byte → Instr) : List Byte → Except Reject Instr
  | [b] => .ok (mk b)
  | [] => .error .tooShort
  | _ :: _ :: _ => .error .tooLong

/-- Format W: one `u32`. -/
def decodeW (mk : Word32 → Instr) : List Byte → Except Reject Instr
  | [w0, w1, w2, w3] => .ok (mk (fromLe32 w0 w1 w2 w3))
  | rest => if rest.length < 4 then .error .tooShort else .error .tooLong

/-- Format X: two `u32`. -/
def decodeX (mk : Word32 → Word32 → Instr) : List Byte → Except Reject Instr
  | [a0, a1, a2, a3, b0, b1, b2, b3] => .ok (mk (fromLe32 a0 a1 a2 a3) (fromLe32 b0 b1 b2 b3))
  | rest => if rest.length < 8 then .error .tooShort else .error .tooLong

/-- The data bytes of formats V and S, against their length field. -/
def decodeData (mk : List Byte → Instr) (n : Word16) (data : List Byte) : Except Reject Instr :=
  if data.length < n.toNat then .error .tooShort
  else if data.length = n.toNat then .ok (mk data)
  else .error .tooLong

/-- Format V: a `u16` length and that many bytes. -/
def decodeV (mk : List Byte → Instr) : List Byte → Except Reject Instr
  | n0 :: n1 :: data => decodeData mk (fromLe16 n0 n1) data
  | _ => .error .tooShort

/-- Format S: a type byte, a `u16` length and that many bytes. -/
def decodeS (mk : Byte → List Byte → Instr) : List Byte → Except Reject Instr
  | type :: n0 :: n1 :: payload => decodeData (mk type) (fromLe16 n0 n1) payload
  | _ => .error .tooShort

/-- Format R: flags and three `u32`. -/
def decodeR (mk : Byte → Word32 → Word32 → Word32 → Instr) : List Byte → Except Reject Instr
  | [flags, p0, p1, p2, p3, c0, c1, c2, c3, k0, k1, k2, k3] =>
    .ok (mk flags (fromLe32 p0 p1 p2 p3) (fromLe32 c0 c1 c2 c3) (fromLe32 k0 k1 k2 k3))
  | rest => if rest.length < 13 then .error .tooShort else .error .tooLong

/-- Format D: five record bytes, the hint selector and the hint. -/
def decodeD (mk : RecBytes → Byte → Word32 → Instr) : List Byte → Except Reject Instr
  | [r0, r1, r2, r3, r4, hsel, h0, h1, h2, h3] => .ok (mk ⟨r0, r1, r2, r3, r4⟩ hsel (fromLe32 h0 h1 h2 h3))
  | rest => if rest.length < 10 then .error .tooShort else .error .tooLong

/-- The command decoder: the opcode byte fixes operation and format, and the packet must have exactly the format's length
(30_encoding.md R63, R64, R68, R69, R70). -/
def decode : Packet → Except Reject Instr
  | [] => .error .emptyPacket
  | op :: rest =>
    match op.toNat with
    | 0x00 => decodeN .crcClr rest
    | 0x01 => decodeB .crcUpd rest
    | 0x02 => decodeN .crcRd rest
    | 0x03 => decodeV .crcBlk rest
    | 0x10 => decodeB .escEnc rest
    | 0x11 => decodeB .escDec rest
    | 0x12 => decodeN .escFlush rest
    | 0x13 => decodeN .escClr rest
    | 0x14 => decodeV .escEncb rest
    | 0x15 => decodeV .escDecb rest
    | 0x20 => decodeB .frxByte rest
    | 0x21 => decodeN .frxEos rest
    | 0x22 => decodeN .frxTmo rest
    | 0x23 => decodeN .frxClr rest
    | 0x30 => decodeN .pinClr rest
    | 0x31 => decodeB .pinDig rest
    | 0x32 => decodeN .pinRd rest
    | 0x33 => decodeV .pinPack rest
    | 0x34 => decodeW .pinUnpk rest
    | 0x35 => decodeX .keyXor rest
    | 0x36 => decodeR .recEnc rest
    | 0x37 => decodeD .recDec rest
    | 0x40 => decodeS .ftxSend rest
    | _ => .error .unknownOpcode

/-- The packet of a format V operation. -/
def encodeV (op : Byte) (data : List Byte) : Packet := op :: (le16 (BitVec.ofNat 16 data.length) ++ data)

/-- The command packet of an operation (30_encoding.md R64, R67, R68). -/
def encode : Instr → Packet
  | .crcClr => [0x00]
  | .crcUpd b => [0x01, b]
  | .crcRd => [0x02]
  | .crcBlk data => encodeV 0x03 data
  | .escEnc b => [0x10, b]
  | .escDec b => [0x11, b]
  | .escFlush => [0x12]
  | .escClr => [0x13]
  | .escEncb data => encodeV 0x14 data
  | .escDecb data => encodeV 0x15 data
  | .frxByte b => [0x20, b]
  | .frxEos => [0x21]
  | .frxTmo => [0x22]
  | .frxClr => [0x23]
  | .pinClr => [0x30]
  | .pinDig d => [0x31, d]
  | .pinRd => [0x32]
  | .pinPack data => encodeV 0x33 data
  | .pinUnpk w => 0x34 :: le32 w
  | .keyXor a b => 0x35 :: (le32 a ++ le32 b)
  | .recEnc flags ppin card ckey => 0x36 :: flags :: (le32 ppin ++ le32 card ++ le32 ckey)
  | .recDec record hsel hint => 0x37 :: (record.toList ++ hsel :: le32 hint)
  | .ftxSend type payload => 0x40 :: type :: (le16 (BitVec.ofNat 16 payload.length) ++ payload)

/-- The lowest `k` bytes of `w`, least significant first. -/
def wordBytes : Nat → Nat → List Byte
  | 0, _ => []
  | k + 1, w => BitVec.ofNat 8 w :: wordBytes k (w / 256)

/-- Byte `k` of `w`. -/
def byteAt (w k : Nat) : Byte := BitVec.ofNat 8 (w / 256 ^ k)

/-- The packet whose bits are `w`, numbered from the least significant bit of its first byte, every bit above `nbits` zero: as
long as the format of its opcode requires, and no shorter than `nbits` says (log 12). -/
def tableWordPacket (nbits w : Nat) : Packet :=
  let bits := w % 2 ^ nbits
  let needed :=
    match formatOf (byteAt bits 0) with
    | some f => f.packetLength (byteAt bits 1) (byteAt bits 2) (byteAt bits 3)
    | none => 1
  wordBytes (max (nbits / 8) needed) bits

/-- The operation the decoder reads from the packet of `tableWordPacket`. -/
def decodeTableWord (nbits w : Nat) : Option Instr :=
  match decode (tableWordPacket nbits w) with
  | .ok i => some i
  | .error _ => none

end Sys2Proof
end

