-- ==== Sys2Proof/Config.lean ====
section
/-! DEFINITION. The parameters the source leaves open (00_scope.md R8; 92_eei_decisions.md D10, D15, D18), as the
named argument of the model the spec asks for. They are constants of a block, not registers (10_state.md R38): no
operation writes them (log 3). -/

namespace Sys2Proof

/-- The four access types the source names (30_encoding.md R61). -/
inductive AccessType where
  | none
  | pin
  | card
  | cardAndPin
  deriving DecidableEq, Repr

/-- `P_ESC_ESC`: what FRX does with `0x7D` arriving while the escape flag is set (00_scope.md R8;
43_frame_receiver.md R109, R124). -/
inductive EscEsc where
  /-- The second `0x7D` is data, xored with `0x20`. -/
  | data
  /-- The second `0x7D` is a marker again. -/
  | mark
  deriving DecidableEq, Repr

/-- `ACCESS_CODE`: the two-bit code of each access type in bits 1:0 of the access byte (30_encoding.md R61). It is a
bijection exactly when `AccessCode.Bijective` holds (log 14). -/
structure AccessCode where
  none : BitVec 2
  pin : BitVec 2
  card : BitVec 2
  cardAndPin : BitVec 2
  deriving DecidableEq, Repr

/-- The four codes differ; four different two-bit codes are all of them, so this is R8's bijection. -/
abbrev AccessCode.Bijective (c : AccessCode) : Prop :=
  [c.none, c.pin, c.card, c.cardAndPin].Nodup

/-- The three parameters of 00_scope.md R8. -/
structure Config where
  /-- `P_ESC_ESC`. -/
  escEsc : EscEsc
  /-- `ACCESS_CODE`. -/
  accessCode : AccessCode
  /-- `KEY_NONE`: the key REC.ENC writes when no credential is given and none is required. -/
  keyNone : Word32
  deriving DecidableEq, Repr

/-- What 00_scope.md R8 requires of the parameters: `ACCESS_CODE` is a bijection. -/
abbrev Config.Wf (c : Config) : Prop := c.accessCode.Bijective

end Sys2Proof
end

