-- ==== Sys2Proof/Machine/Params.lean ====
section
/-! DEFINITION. The parameters the source fixes (00_scope.md R7; the numeric literals are unaudited, R4, log 7) and the
spec's defaults for those it leaves open (R8). -/

namespace Sys2Proof.Machine

/-- `SYNC`, the frame start byte. -/
def syncByte : Byte := 0x7E

/-- `ESC`, the escape marker byte. -/
def escByte : Byte := 0x7D

/-- `ESC_XOR`, xored by the receiver into the byte after an escape marker. -/
def escXor : Byte := 0x20

/-- `ESC_OF_ESC`, second byte of the pair that stands for `0x7D`. -/
def escOfEsc : Byte := 0x5D

/-- `ESC_OF_SYNC`, second byte of the pair that stands for `0x7E`. -/
def escOfSync : Byte := 0x5E

/-- `CRC_POLY`, x^16 + x^12 + x^5 + 1 with the x^16 term implicit. -/
def crcPoly : Word16 := 0x1021

/-- `CRC_INIT`. There is no reflection and `CRC_XOROUT` is 0, so nothing is done to input or result. -/
def crcInit : Word16 := 0x0000

/-- `MAX_PAYLOAD`, the largest payload length. -/
def maxPayload : Nat := 255

/-- `PIN_INIT`, the start value of the PIN accumulator. -/
def pinInit : Word32 := 0xFFFFFFFF

/-- `PIN_FILL`, the sentinel nibble of unused high-order digit positions. -/
def pinFill : BitVec 4 := 0xF

/-- The spec's defaults of the open parameters (00_scope.md R8; 30_encoding.md R61). `KEY_NONE` has no default, only the
suggested value 0 (logs 3, 4). -/
def defaultConfig : Config where
  escEsc := .data
  accessCode := ⟨0, 1, 2, 3⟩
  keyNone := 0x00000000

end Sys2Proof.Machine
end

