-- ==== Sys2Proof/Machine/State.lean ====
section
/-! DEFINITION. The state of the block: the ten registers of 10_state.md R20, the open parameters of 00_scope.md R8, and
the two ends of the command port. All of it is plain data. -/

namespace Sys2Proof.Machine

/-- The six states of the receiver, `ST` (10_state.md R24). Its codes 6 and 7 are never produced and not legal (log 5). -/
inductive FrxState where
  | waitSync
  | readType
  | readLen
  | readPayload
  | readCrcLo
  | readCrcHi
  deriving DecidableEq, Repr

/-- The seven registers of the FRX unit (10_state.md R24 to R29). -/
structure Frx where
  /-- `ST`, which field of a frame the next data byte is. -/
  st : FrxState
  /-- `ESCF`, the pending-escape flag. -/
  escf : Bool
  /-- `TYPE`, the type byte of the frame in progress. -/
  type : Byte
  /-- `LEN`, the length byte of the frame in progress. -/
  len : Byte
  /-- `PAY`, the payload bytes received so far, in arrival order; its length is the source's `pos` (log 6). -/
  pay : List Byte
  /-- `RCRC`, the received-CRC shift register. -/
  rcrc : Word16
  /-- `XCRC`, the running CRC of the unescaped TYPE, LEN and payload bytes. -/
  xcrc : Word16
  deriving DecidableEq, Repr

/-- The status of a result (60_exceptions.md R200). -/
inductive Status where
  | ok
  | illegalOp
  | reservedField
  | checksumError
  | endOfStream
  | timeout
  | payloadTooLarge
  | invalidArgument
  | pinDigit
  | pinFormat
  deriving DecidableEq, Repr

/-- What REC.DEC reports of a record (45_access_codec.md R155, R156). -/
structure DecodedRecord where
  accessType : AccessType
  invalid : Bool
  doorsMask : BitVec 4
  key : Word32
  pin : Option (List Byte)
  card : Option Word32
  deriving DecidableEq, Repr

/-- The value result `res` of an operation (00_scope.md R12; log 11). -/
inductive Res where
  | none
  | u16 (v : Word16)
  | u32 (v : Word32)
  /-- `MSG(type, payload)` (43_frame_receiver.md R105). -/
  | msg (type : Byte) (payload : List Byte)
  /-- A PIN's digits, the first digit first (45_access_codec.md R147). -/
  | digits (ds : List Byte)
  | record (r : DecodedRecord)
  deriving DecidableEq, Repr

/-- The result `(status, res, out)` of an operation (00_scope.md R12). -/
structure Result where
  status : Status
  res : Res
  out : List Byte
  deriving DecidableEq, Repr

/-- The machine: the block's registers, its parameters and the host's side of its port. -/
structure State where
  /-- `CRC`, the accumulator of the CRC unit (10_state.md R22). -/
  crc : Word16
  /-- `UPEND`, an escape marker held by ESC.DEC (10_state.md R23). -/
  upend : Bool
  /-- The seven registers of FRX. -/
  frx : Frx
  /-- `PINACC`, the PIN packing accumulator (10_state.md R32). -/
  pinacc : Word32
  /-- The open parameters; no operation writes them (log 3). -/
  cfg : Config
  /-- The packets the host is still to present, in issue order (log 1). -/
  cmds : List Packet
  /-- The results delivered, oldest first; the block never reads them (log 2). -/
  rsps : List Result
  deriving DecidableEq, Repr

/-- Why the machine stops with a fault. It has no constructor: a status other than `OK` is part of an operation's result and
the block goes on (60_exceptions.md R207, R210), and no behaviour of it is stuck (93_implementation_defined.md). Safe: no
claim can hold because the model stopped. -/
inductive Fault where
  deriving DecidableEq, Repr

/-- Why the machine gives an operation no meaning. -/
inductive Refusal where
  /-- Raised by an arm of exec whose operation has no meaning yet; no arm is such. Safe: it stops. -/
  | notModelled (mnemonic : String)
  deriving DecidableEq, Repr

/-- FRX after reset (10_state.md R36). -/
def Frx.reset : Frx where
  st := .waitSync
  escf := false
  type := 0x00
  len := 0x00
  pay := []
  rcrc := 0x0000
  xcrc := 0x0000

/-- The machine right after reset (10_state.md R36; 70_reset_and_hazards.md R220): idle, no packet waiting, no result
delivered (logs 1, 2, 3, 4). -/
def State.reset : State where
  crc := 0x0000
  upend := false
  frx := .reset
  pinacc := 0xFFFFFFFF
  cfg := defaultConfig
  cmds := []
  rsps := []

end Sys2Proof.Machine
end

