-- ==== Sys2Proof/Machine/Ops.lean ====
section
/-! DEFINITION. The named operations over the state: forming a result, raising a status (the block's whole exception
mechanism), answering, clearing FRX, and taking a packet from the command port. The block has no memory
(20_memory.md R40), so there is no memory operation; `PAY` is accessed only by FRX.BYTE (R41). -/

namespace Sys2Proof.Machine

/-- The outcome type of every meaning. -/
abbrev Out := Host.Outcome State Fault Refusal

/-- The numeric status codes (60_exceptions.md R200). -/
def Status.code : Status → Byte
  | .ok => 0x00
  | .illegalOp => 0x01
  | .reservedField => 0x02
  | .checksumError => 0x10
  | .endOfStream => 0x11
  | .timeout => 0x12
  | .payloadTooLarge => 0x13
  | .invalidArgument => 0x20
  | .pinDigit => 0x21
  | .pinFormat => 0x22

/-- The 3-bit codes of `ST` (10_state.md R24). -/
def FrxState.code : FrxState → BitVec 3
  | .waitSync => 0
  | .readType => 1
  | .readLen => 2
  | .readPayload => 3
  | .readCrcLo => 4
  | .readCrcHi => 5

/-- `return (OK, res, out)` (00_scope.md R11, R12). -/
def okResult (res : Res) (out : List Byte) : Result := ⟨.ok, res, out⟩

/-- `raise <Status>`: taking an exception. The block saves nothing, changes no mode and jumps nowhere; the status is part of
the operation's result, with no value and no output (00_scope.md R11; 60_exceptions.md R207). There is no return from it:
the next operation runs as if it had not happened (R208, R209). -/
def raise (status : Status) : Result := ⟨status, .none, []⟩

/-- A result delivered to the host, after those delivered before (00_scope.md R12; log 2). -/
def State.deliver (s : State) (r : Result) : State := { s with rsps := s.rsps ++ [r] }

/-- The operation ends, with exactly one result (60_exceptions.md R200), and the block goes on (R210). -/
def State.answer (s : State) (r : Result) : Out := .next (s.deliver r)

/-- `FRX_clear()`: every FRX register but `ST` (10_state.md R31). -/
def Frx.clear (f : Frx) : Frx :=
  { f with escf := false, type := 0x00, len := 0x00, pay := [], rcrc := 0x0000, xcrc := 0x0000 }

/-- `FRX_clear(); ST <- WAIT_SYNC`, how a frame in progress ends (43_frame_receiver.md R114 to R117). -/
def Frx.abandon (f : Frx) : Frx := { f.clear with st := .waitSync }

/-- `FRX_clear(); ST <- READ_TYPE`, how a frame starts (43_frame_receiver.md R107). -/
def Frx.start (f : Frx) : Frx := { f.clear with st := .readType }

/-- An FRX termination that the host asks for: FRX cleared and in `WAIT_SYNC`, the other units unchanged, and the status
raised (60_exceptions.md R207). -/
def State.terminateFrx (s : State) (status : Status) : Out :=
  { s with frx := s.frx.abandon }.answer (raise status)

/-- An illegal or malformed packet: `(IllegalOp, none, [])`, no register written and no byte emitted
(30_encoding.md R69; 60_exceptions.md R203). -/
def refusePacket (s : State) : Out := s.answer (raise .illegalOp)

/-- Taking the next command packet from the port, if one is waiting (10_state.md R21). -/
def fetchPacket (s : State) : Option (Packet × State) :=
  match s.cmds with
  | [] => none
  | p :: rest => some (p, { s with cmds := rest })

/-- The host presents a packet, to be taken next. -/
def State.present (s : State) (p : Packet) : State := { s with cmds := p :: s.cmds }

end Sys2Proof.Machine
end

