-- ==== Sys2Proof/Machine/Crc.lean ====
section
/-! DEFINITION. The CRC unit (41_crc.md): the CRC-16/XMODEM function and CRC.CLR, CRC.UPD, CRC.RD, CRC.BLK. None of its
operations can fail (60_exceptions.md R201). -/

namespace Sys2Proof.Machine

/-- One turn of the loop of 41_crc.md R80: shift left by one, and xor the generator in if bit 15 left. -/
def crcShift (c : Word16) : Word16 := if c.getLsbD 15 then c <<< 1 ^^^ crcPoly else c <<< 1

/-- The loop of 41_crc.md R80, `k` times. -/
def crcShifts : Nat → Word16 → Word16
  | 0, c => c
  | k + 1, c => crcShifts k (crcShift c)

/-- `crc_byte(c, b)`: the byte enters at the top of the accumulator, then eight shifts (41_crc.md R80, log 8). -/
def crcByte (c : Word16) (b : Byte) : Word16 := crcShifts 8 (c ^^^ b.zeroExtend 16 <<< 8)

/-- `crc16(s)`: the left fold of `crc_byte` from `CRC_INIT`, with nothing done to the result (41_crc.md R81). -/
def crc16 (s : List Byte) : Word16 := s.foldl crcByte crcInit

/-- CRC.CLR: `CRC <- 0x0000` (41_crc.md R82). -/
def execCrcClr (s : State) : Out := { s with crc := crcInit }.answer (okResult .none [])

/-- CRC.UPD b: `CRC <- crc_byte(CRC, b)` (41_crc.md R83). -/
def execCrcUpd (b : Byte) (s : State) : Out := { s with crc := crcByte s.crc b }.answer (okResult .none [])

/-- CRC.RD: the result is `CRC` (41_crc.md R84). -/
def execCrcRd (s : State) : Out := s.answer (okResult (.u16 s.crc) [])

/-- CRC.BLK data: `CRC <- crc16(data)`, and that is the result; the previous value is lost (41_crc.md R85). -/
def execCrcBlk (data : List Byte) (s : State) : Out :=
  { s with crc := crc16 data }.answer (okResult (.u16 (crc16 data)) [])

end Sys2Proof.Machine
end

