-- ==== Sys2Proof/Machine/Flags.lean ====
section
/-! DEFINITION. The block's two flags, `UPEND` and `ESCF`, and how a byte changes each. There are no arithmetic
condition codes (10_state.md R34). -/

namespace Sys2Proof.Machine

/-- One byte of streaming unescape: the new `UPEND` and the bytes output (42_escape.md R97). -/
def upendStep (upend : Bool) (b : Byte) : Bool × List Byte :=
  if upend then
    if b = escOfSync then (false, [syncByte])
    else if b = escOfEsc then (false, [escByte])
    else if b = escByte then (true, [escByte])
    else (false, [escByte, b])
  else if b = escByte then (true, [])
  else (false, [b])

/-- The end of a buffer being unescaped: the bytes output when `UPEND` is dropped (42_escape.md R98). -/
def upendFlush (upend : Bool) : List Byte := if upend then [escByte] else []

/-- The receiver's escape removal outside `WAIT_SYNC` on a byte that is not a sync: the new `ESCF`, and the data byte if
there is one (43_frame_receiver.md R106 part 3, R109, R124; 60_exceptions.md R206). -/
def escfStep (variant : EscEsc) (escf : Bool) (b : Byte) : Bool × Option Byte :=
  if variant = .mark ∧ b = escByte then (true, none)
  else if escf then (false, some (b ^^^ escXor))
  else if b = escByte then (true, none)
  else (escf, some b)

end Sys2Proof.Machine
end

