-- ==== Sys2Proof/Machine/Esc.lean ====
section
/-! DEFINITION. The ESC unit (42_escape.md): escape and unescape on buffers and byte by byte. None of its operations can
fail (60_exceptions.md R201), and none resynchronises: a `0x7E` is an ordinary byte here (42_escape.md R97). -/

namespace Sys2Proof.Machine

/-- `esc1(b)`, the escape of one byte (42_escape.md R90). -/
def esc1 (b : Byte) : List Byte :=
  if b = escByte then [escByte, escOfEsc]
  else if b = syncByte then [escByte, escOfSync]
  else [b]

/-- `escape(s)`, the concatenation of `esc1` over `s` (42_escape.md R91). -/
def escape (s : List Byte) : List Byte := s.flatMap esc1

/-- Every non-overlapping occurrence of the pattern `x y`, found scanning from the start, replaced by `z`
(42_escape.md R92). -/
def replacePair (x y z : Byte) : List Byte → List Byte
  | a :: b :: rest => if a = x ∧ b = y then z :: replacePair x y z rest else a :: replacePair x y z (b :: rest)
  | short => short

/-- `unescape(s)`: first every `7D 5E` becomes `7E`, then, in the result, every `7D 5D` becomes `7D` (42_escape.md R92; log 9,
C1). -/
def unescape (s : List Byte) : List Byte :=
  replacePair escByte escOfEsc escByte (replacePair escByte escOfSync syncByte s)

/-- ESC.ENC b: output `esc1(b)`; no register is read or written (42_escape.md R94, R95). -/
def execEscEnc (b : Byte) (s : State) : Out := s.answer (okResult .none (esc1 b))

/-- ESC.DEC b: one step of streaming unescape, with the held marker in `UPEND` (42_escape.md R97). -/
def execEscDec (b : Byte) (s : State) : Out :=
  { s with upend := (upendStep s.upend b).1 }.answer (okResult .none (upendStep s.upend b).2)

/-- ESC.FLUSH: a held `7D` is output as it is (42_escape.md R98). -/
def execEscFlush (s : State) : Out := { s with upend := false }.answer (okResult .none (upendFlush s.upend))

/-- ESC.CLR: a held `7D` is dropped (42_escape.md R99). -/
def execEscClr (s : State) : Out := { s with upend := false }.answer (okResult .none [])

/-- ESC.ENCB data: output `escape(data)` (42_escape.md R96). -/
def execEscEncb (data : List Byte) (s : State) : Out := s.answer (okResult .none (escape data))

/-- ESC.DECB data: `UPEND <- 0`, output `unescape(data)` (42_escape.md R101). -/
def execEscDecb (data : List Byte) (s : State) : Out :=
  { s with upend := false }.answer (okResult .none (unescape data))

end Sys2Proof.Machine
end

