-- ==== Sys2Proof/Machine/Operands.lean ====
section
/-! DEFINITION. Every operand field the spec gives inside a byte or a record: the digit operand, the flags byte of
format R, the hint of format D, the access byte and the record (30_encoding.md R59, R60, R61, R65, R66). -/

namespace Sys2Proof.Machine

/-- A digit operand is legal when it is 0 to 9 (30_encoding.md R69; 45_access_codec.md R144). -/
def isDigit (d : Byte) : Bool := decide (d.toNat ≤ 9)

/-- The fields of the `flags` byte of format R (30_encoding.md R65). -/
structure RecFlags where
  doors : BitVec 4
  req : Bool
  hasCkey : Bool
  hasCard : Bool
  hasPin : Bool
  deriving DecidableEq, Repr

/-- `flags`: doors in bits 7:4, `req` bit 3, `has_ckey` bit 2, `has_card` bit 1, `has_pin` bit 0 (30_encoding.md R65). -/
def recFlags (flags : Byte) : RecFlags where
  doors := flags.extractLsb' 4 4
  req := flags.getLsbD 3
  hasCkey := flags.getLsbD 2
  hasCard := flags.getLsbD 1
  hasPin := flags.getLsbD 0

/-- The hint operand of REC.DEC (30_encoding.md R66). -/
inductive Hint where
  | none
  | pin (ppin : Word32)
  | card (card : Word32)
  deriving DecidableEq, Repr

/-- The hint that `hsel` and `hint` stand for; `none` for the reserved selectors 3 to 255 (30_encoding.md R66). -/
def hintOf (hsel : Byte) (hint : Word32) : Option Hint :=
  if hsel = 0 then some .none
  else if hsel = 1 then some (.pin hint)
  else if hsel = 2 then some (.card hint)
  else none

/-- `ACCESS_CODE(t)` (30_encoding.md R61). -/
def accessCodeOf (c : AccessCode) : AccessType → BitVec 2
  | .none => c.none
  | .pin => c.pin
  | .card => c.card
  | .cardAndPin => c.cardAndPin

/-- The type whose `ACCESS_CODE` is `code` (45_access_codec.md R153). Under a bijection it is the only one (log 14). -/
def accessTypeOf (c : AccessCode) (code : BitVec 2) : AccessType :=
  if code = c.none then .none
  else if code = c.pin then .pin
  else if code = c.card then .card
  else .cardAndPin

/-- The access byte the encoder writes: `(doors << 4) or (0 << 3) or (0 << 2) or code` (45_access_codec.md R150, R151). -/
def accessByte (doors : BitVec 4) (code : BitVec 2) : Byte := doors.zeroExtend 8 <<< 4 ||| code.zeroExtend 8

/-- `doors_mask = access[7:4]` (30_encoding.md R60). -/
def accessDoors (access : Byte) : BitVec 4 := access.extractLsb' 4 4

/-- `invalid = access[2]` (30_encoding.md R60). -/
def accessInvalid (access : Byte) : Bool := access.getLsbD 2

/-- `code = access[1:0]`; bit 3 is ignored (45_access_codec.md R152). -/
def accessTypeCode (access : Byte) : BitVec 2 := access.extractLsb' 0 2

/-- `key = from_le32(rec[0..4])` (45_access_codec.md R152). -/
def recordKey (r : RecBytes) : Word32 := fromLe32 r.b0 r.b1 r.b2 r.b3

/-- `access = rec[4]` (45_access_codec.md R152). -/
def recordAccess (r : RecBytes) : Byte := r.b4

/-- The five record bytes of a key and an access byte (30_encoding.md R59). -/
def recordBytes (key : Word32) (access : Byte) : List Byte := le32 key ++ [access]

end Sys2Proof.Machine
end

