-- ==== Sys2Proof/Machine/Pin.lean ====
section
/-! DEFINITION. The PIN part of the ACC unit (45_access_codec.md): PIN.CLR, PIN.DIG, PIN.RD, PIN.PACK, PIN.UNPK and the
combiner KEY.XOR. A digit is its value 0 to 9, not a character. -/

namespace Sys2Proof.Machine

/-- `((a << 4) or d) mod 2^32` (45_access_codec.md R140). -/
def pinShift (a : Word32) (d : Byte) : Word32 := a <<< 4 ||| d.zeroExtend 32

/-- `pack_pin(ds)`, of any number of digits (45_access_codec.md R140). -/
def packPin (ds : List Byte) : Word32 := ds.foldl pinShift pinInit

/-- The eight nibbles of a word, from bits 31:28 down to bits 3:0 (45_access_codec.md R141). -/
def nibbles (v : Word32) : List (BitVec 4) :=
  [v.extractLsb' 28 4, v.extractLsb' 24 4, v.extractLsb' 20 4, v.extractLsb' 16 4,
   v.extractLsb' 12 4, v.extractLsb' 8 4, v.extractLsb' 4 4, v.extractLsb' 0 4]

/-- `unpack_pin(v)`: what follows the leading `0xF` nibbles, when it is not empty and all of it is digits; otherwise `v` is
not a canonical packed PIN (45_access_codec.md R141). -/
def unpackPin (v : Word32) : Option (List Byte) :=
  let ds := (nibbles v).dropWhile (· == pinFill)
  if ds ≠ [] ∧ ds.all (fun d => decide (d.toNat ≤ 9)) then some (ds.map (·.zeroExtend 8)) else none

/-- PIN.CLR: `PINACC <- 0xFFFFFFFF` (45_access_codec.md R143). -/
def execPinClr (s : State) : Out := { s with pinacc := pinInit }.answer (okResult .none [])

/-- PIN.DIG d: shift one digit in, or `PinDigit` with `PINACC` unchanged (45_access_codec.md R144). -/
def execPinDig (d : Byte) (s : State) : Out :=
  if isDigit d then { s with pinacc := pinShift s.pinacc d }.answer (okResult .none [])
  else s.answer (raise .pinDigit)

/-- PIN.RD: the result is `PINACC` (45_access_codec.md R145). -/
def execPinRd (s : State) : Out := s.answer (okResult (.u32 s.pinacc) [])

/-- PIN.PACK ds: `PINACC <- pack_pin(ds)`, and that is the result; all digits are checked before anything is written
(45_access_codec.md R146). -/
def execPinPack (ds : List Byte) (s : State) : Out :=
  if ds.all isDigit then { s with pinacc := packPin ds }.answer (okResult (.u32 (packPin ds)) [])
  else s.answer (raise .pinDigit)

/-- The result of PIN.UNPK (45_access_codec.md R147). -/
def unpackResult (w : Word32) : Result :=
  match unpackPin w with
  | some ds => okResult (.digits ds) []
  | none => raise .pinFormat

/-- PIN.UNPK w: the digits of a canonical packed PIN, or `PinFormat`; `PINACC` is not used (45_access_codec.md R147). -/
def execPinUnpk (w : Word32) (s : State) : Out := s.answer (unpackResult w)

/-- KEY.XOR a, b: the PIN xor card combiner (45_access_codec.md R142, R148). -/
def execKeyXor (a b : Word32) (s : State) : Out := s.answer (okResult (.u32 (a ^^^ b)) [])

end Sys2Proof.Machine
end

