-- ==== Sys2Proof/Machine/Receiver.lean ====
section
/-! DEFINITION. The FRX unit (43_frame_receiver.md): FRX.BYTE, FRX.EOS, FRX.TMO, FRX.CLR. No operation of it reads or writes
another unit's register (10_state.md R23, R29), and none emits a byte (R105). -/

namespace Sys2Proof.Machine

/-- `(d << 8) or (RCRC >> 8)`: a CRC byte shifted in at the top (10_state.md R28). -/
def rcrcShift (rcrc : Word16) (d : Byte) : Word16 := d.zeroExtend 16 <<< 8 ||| rcrc >>> 8

/-- `(OK, none, [])`, while no frame completes (43_frame_receiver.md R105). -/
def frxOk : Result := okResult .none []

/-- Part 4 of FRX.BYTE: an unescaped data byte, by the field it is (43_frame_receiver.md R106, R110 to R114). In `WAIT_SYNC`
there is no data byte: part 2 took it. The comparison of `|PAY|` with `LEN` is an equality, as written (log 6). -/
def frxData (f : Frx) (d : Byte) : Frx × Result :=
  match f.st with
  | .waitSync => (f, frxOk)
  | .readType => ({ f with type := d, xcrc := crcByte f.xcrc d, st := .readLen }, frxOk)
  | .readLen =>
    ({ f with len := d, xcrc := crcByte f.xcrc d, st := if d = 0 then .readCrcLo else .readPayload }, frxOk)
  | .readPayload =>
    ({ f with
        pay := f.pay ++ [d]
        xcrc := crcByte f.xcrc d
        st := if (f.pay ++ [d]).length = f.len.toNat then .readCrcLo else .readPayload }, frxOk)
  | .readCrcLo => ({ f with rcrc := rcrcShift f.rcrc d, st := .readCrcHi }, frxOk)
  | .readCrcHi =>
    if rcrcShift f.rcrc d = f.xcrc then (f.abandon, okResult (.msg f.type f.pay) [])
    else (f.abandon, raise .checksumError)

/-- FRX.BYTE on the FRX registers: sync first in every state, then the discard of `WAIT_SYNC`, then escape removal, then the
field (43_frame_receiver.md R106 to R109; 60_exceptions.md R206). -/
def frxByte (variant : EscEsc) (f : Frx) (b : Byte) : Frx × Result :=
  if b = syncByte then (f.start, frxOk)
  else if f.st = .waitSync then (f, frxOk)
  else
    match escfStep variant f.escf b with
    | (escf, none) => ({ f with escf := escf }, frxOk)
    | (escf, some d) => frxData { f with escf := escf } d

/-- FRX.BYTE b: give one received byte to the receiver (43_frame_receiver.md R106). -/
def execFrxByte (b : Byte) (s : State) : Out :=
  { s with frx := (frxByte s.cfg.escEsc s.frx b).1 }.answer (frxByte s.cfg.escEsc s.frx b).2

/-- FRX.EOS: the channel is closed or exhausted; `EndOfStream`, always (43_frame_receiver.md R115). -/
def execFrxEos (s : State) : Out := s.terminateFrx .endOfStream

/-- FRX.TMO: the channel read timed out; `Timeout`, always (43_frame_receiver.md R116). -/
def execFrxTmo (s : State) : Out := s.terminateFrx .timeout

/-- FRX.CLR: abandon any frame in progress (43_frame_receiver.md R117). -/
def execFrxClr (s : State) : Out := { s with frx := s.frx.abandon }.answer frxOk

end Sys2Proof.Machine
end

