-- ==== Sys2Proof/Machine/Record.lean ====
section
/-! DEFINITION. The record part of the ACC unit (45_access_codec.md): REC.ENC and REC.DEC on the five-byte access record.
Neither reads nor writes a register (10_state.md R32). -/

namespace Sys2Proof.Machine

/-- The key and access type REC.ENC chooses, by the precedence of 45_access_codec.md R149; `none` when no credential is
given and one is required. -/
def chooseKey (keyNone : Word32) (f : RecFlags) (ppin card ckey : Word32) : Option (Word32 × AccessType) :=
  if f.hasCkey then some (ckey, .cardAndPin)
  else if f.hasPin && f.hasCard then some (card ^^^ ppin, .cardAndPin)
  else if f.hasCard then some (card, .card)
  else if f.hasPin then some (ppin, .pin)
  else if f.req then none
  else some (keyNone, .none)

/-- The result of REC.ENC: the five record bytes, or `InvalidArgument` and nothing emitted (45_access_codec.md R150). -/
def encodeRecord (cfg : Config) (flags : Byte) (ppin card ckey : Word32) : Result :=
  match chooseKey cfg.keyNone (recFlags flags) ppin card ckey with
  | none => raise .invalidArgument
  | some (key, t) =>
    okResult .none (recordBytes key (accessByte (recFlags flags).doors (accessCodeOf cfg.accessCode t)))

/-- The access type of a decoded record: the invalid flag forces `None` (45_access_codec.md R153). -/
def recordType (cfg : Config) (access : Byte) : AccessType :=
  if accessInvalid access then .none else accessTypeOf cfg.accessCode (accessTypeCode access)

/-- The `pin` and `card` results by type and hint; `none` is `PinFormat` (45_access_codec.md R154). -/
def recoverCredentials (t : AccessType) (hint : Hint) (key : Word32) : Option (Option (List Byte) × Option Word32) :=
  match t with
  | .none => some (none, none)
  | .pin => (unpackPin key).map fun ds => (some ds, none)
  | .card => some (none, some key)
  | .cardAndPin =>
    match hint with
    | .none => some (none, none)
    | .pin ppin => some (none, some (key ^^^ ppin))
    | .card card => (unpackPin (key ^^^ card)).map fun ds => (some ds, none)

/-- The result of REC.DEC: `ReservedField` is tested before the record is looked at (45_access_codec.md R152 to R155;
60_exceptions.md R206). -/
def decodeRecord (cfg : Config) (record : RecBytes) (hsel : Byte) (hint : Word32) : Result :=
  match hintOf hsel hint with
  | none => raise .reservedField
  | some h =>
    let key := recordKey record
    let access := recordAccess record
    let t := recordType cfg access
    match recoverCredentials t h key with
    | none => raise .pinFormat
    | some (pin, card) =>
      okResult (.record ⟨t, accessInvalid access, accessDoors access, key, pin, card⟩) []

/-- REC.ENC flags, ppin, card, ckey (45_access_codec.md R150). -/
def execRecEnc (flags : Byte) (ppin card ckey : Word32) (s : State) : Out :=
  s.answer (encodeRecord s.cfg flags ppin card ckey)

/-- REC.DEC rec, hsel, hint (45_access_codec.md R155). -/
def execRecDec (record : RecBytes) (hsel : Byte) (hint : Word32) (s : State) : Out :=
  s.answer (decodeRecord s.cfg record hsel hint)

end Sys2Proof.Machine
end

