-- ==== Sys2Proof/Machine/Transmitter.lean ====
section
/-! DEFINITION. The FTX unit (44_frame_transmitter.md): FTX.SEND. FTX has no state (10_state.md R33). -/

namespace Sys2Proof.Machine

/-- `TYPE ‖ LEN ‖ PAYLOAD`, unescaped: what the CRC covers (44_frame_transmitter.md R130). -/
def frameBody (type : Byte) (payload : List Byte) : List Byte :=
  type :: BitVec.ofNat 8 payload.length :: payload

/-- `frame(type, payload)`: the sync byte, then the escaped body and CRC, low byte first (44_frame_transmitter.md R130). -/
def frame (type : Byte) (payload : List Byte) : List Byte :=
  syncByte :: escape (frameBody type payload ++ le16 (crc16 (frameBody type payload)))

/-- FTX.SEND type, payload: one complete wire frame, or `PayloadTooLarge` and nothing emitted when the payload has more than
255 bytes (44_frame_transmitter.md R131). -/
def execFtxSend (type : Byte) (payload : List Byte) (s : State) : Out :=
  if payload.length > maxPayload then s.answer (raise .payloadTooLarge)
  else s.answer (okResult .none (frame type payload))

end Sys2Proof.Machine
end

