-- ==== Sys2Proof/Machine/Dispatch.lean ====
section
/-! DEFINITION. One operation on one state (00_scope.md R12). -/

namespace Sys2Proof.Machine

def exec (i : Instr) (s : State) : Host.Outcome State Fault Refusal :=
  match i with
  | .crcClr => Sys2Proof.Machine.execCrcClr s
  | .crcUpd b => Sys2Proof.Machine.execCrcUpd b s
  | .crcRd => Sys2Proof.Machine.execCrcRd s
  | .crcBlk data => Sys2Proof.Machine.execCrcBlk data s
  | .escEnc b => Sys2Proof.Machine.execEscEnc b s
  | .escDec b => Sys2Proof.Machine.execEscDec b s
  | .escFlush => Sys2Proof.Machine.execEscFlush s
  | .escClr => Sys2Proof.Machine.execEscClr s
  | .escEncb data => Sys2Proof.Machine.execEscEncb data s
  | .escDecb data => Sys2Proof.Machine.execEscDecb data s
  | .frxByte b => Sys2Proof.Machine.execFrxByte b s
  | .frxEos => Sys2Proof.Machine.execFrxEos s
  | .frxTmo => Sys2Proof.Machine.execFrxTmo s
  | .frxClr => Sys2Proof.Machine.execFrxClr s
  | .pinClr => Sys2Proof.Machine.execPinClr s
  | .pinDig d => Sys2Proof.Machine.execPinDig d s
  | .pinRd => Sys2Proof.Machine.execPinRd s
  | .pinPack data => Sys2Proof.Machine.execPinPack data s
  | .pinUnpk w => Sys2Proof.Machine.execPinUnpk w s
  | .keyXor a b => Sys2Proof.Machine.execKeyXor a b s
  | .recEnc flags ppin card ckey => Sys2Proof.Machine.execRecEnc flags ppin card ckey s
  | .recDec record hsel hint => Sys2Proof.Machine.execRecDec record hsel hint s
  | .ftxSend type payload => Sys2Proof.Machine.execFtxSend type payload s

end Sys2Proof.Machine
end

