-- ==== Sys2Proof/Machine/Step.lean ====
section
/-! DEFINITION. One step: the block takes the next command packet, performs it whole and answers
(10_state.md R21; 70_reset_and_hazards.md R223). -/

namespace Sys2Proof.Machine

/-- With no packet waiting the block holds its registers and does nothing (60_exceptions.md R213). A packet the decoder
rejects is refused before any operation's own rule is applied (R203, R206); any other runs its operation. -/
def step (s : State) : Host.Outcome State Fault Refusal :=
  match fetchPacket s with
  | none => .next s
  | some (p, s') =>
    match decode p with
    | .ok i => exec i s'
    | .error _ => refusePacket s'

/-- `s` with the packet of `tableWordPacket` presented next (log 12). -/
def State.withFetchWord (s : State) (nbits w : Nat) : State := s.present (tableWordPacket nbits w)

end Sys2Proof.Machine
end

