-- ==== Sys2Proof/Machine/Sequence.lean ====
section
/-! DEFINITION. Sequences of operations: what the block does with operations issued one after another
(20_memory.md R49), and the pseudo-operations, which are written forms of such sequences (30_encoding.md R72). -/

namespace Sys2Proof.Machine

/-- The operations of a list performed in issue order (10_state.md R21; 20_memory.md R49). -/
def execSeq : List Instr → State → Out
  | [], s => .next s
  | i :: rest, s =>
    match exec i s with
    | .next t => execSeq rest t
    | .fault e => .fault e
    | .refused e => .refused e

/-- The output bytes of a list of results, in the order they leave the block (20_memory.md R54). -/
def outputOf (rs : List Result) : List Byte := rs.flatMap (·.out)

/-- `FRX.FEED [b0 b1 ... bk]` (30_encoding.md R72). -/
def frxFeed (bs : List Byte) : List Instr := bs.map .frxByte

/-- The value of a digit character (30_encoding.md R72). -/
def digitOfChar (c : Char) : Option Byte :=
  if 48 ≤ c.toNat ∧ c.toNat ≤ 57 then some (BitVec.ofNat 8 (c.toNat - 48)) else none

/-- `PIN.STR "d1d2...dn"`, on the characters of the string; `none` when one is not a digit (30_encoding.md R72). -/
def pinStr (text : List Char) : Option Instr := (text.mapM digitOfChar).map .pinPack

/-- `CRC.STR "text"`, on the characters of the string, as ASCII codes; `none` when one is not ASCII
(30_encoding.md R72). -/
def crcStr (text : List Char) : Option Instr :=
  if text.all (fun c => decide (c.toNat < 128)) then some (.crcBlk (text.map fun c => BitVec.ofNat 8 c.toNat))
  else none

end Sys2Proof.Machine
end

