-- ==== Sys2Proof/Safety.lean ====
section
/-! DEFINITION. What claims about the block are stated with: the FRX invariants of 10_state.md R30, when two states agree
on the registers, and when an outcome is safe. -/

namespace Sys2Proof.Machine

/-- 10_state.md R30, clauses 1 to 6, and one clause the model adds so that clause 6 is inductive: `RCRC` is 0 in every state
but `READ_CRC_HI` (log 17). -/
abbrev Frx.Inv (f : Frx) : Prop :=
  (f.st = .waitSync →
    f.escf = false ∧ f.type = 0 ∧ f.len = 0 ∧ f.pay = [] ∧ f.rcrc = 0 ∧ f.xcrc = 0) ∧
  (f.st = .readType → f.type = 0 ∧ f.len = 0 ∧ f.pay = [] ∧ f.rcrc = 0 ∧ f.xcrc = 0) ∧
  (f.st = .readLen → f.pay = [] ∧ f.xcrc = crc16 [f.type]) ∧
  (f.st = .readPayload →
    1 ≤ f.len.toNat ∧ f.pay.length < f.len.toNat ∧ f.xcrc = crc16 ([f.type, f.len] ++ f.pay)) ∧
  (f.st = .readCrcLo ∨ f.st = .readCrcHi →
    f.pay.length = f.len.toNat ∧ f.xcrc = crc16 ([f.type, f.len] ++ f.pay)) ∧
  (f.st = .readCrcHi → f.rcrc.extractLsb' 0 8 = 0) ∧
  (f.st ≠ .readCrcHi → f.rcrc = 0)

/-- What every reachable state satisfies: the FRX invariants, and the requirement of 00_scope.md R8 on the parameters. -/
abbrev State.Inv (s : State) : Prop := s.frx.Inv ∧ s.cfg.Wf

/-- Two states hold the same values in all ten registers (10_state.md R20) and have the same parameters. -/
abbrev State.SameRegisters (s t : State) : Prop :=
  s.crc = t.crc ∧ s.upend = t.upend ∧ s.frx = t.frx ∧ s.pinacc = t.pinacc ∧ s.cfg = t.cfg

/-- An outcome in which the block goes on (60_exceptions.md R210: it never stops accepting operations). -/
abbrev Safe (o : Out) : Prop := ∃ t, o = .next t

end Sys2Proof.Machine
end

