-- ==== Sys2Proof/Certificates/Slice0/Obligations.lean ====
section
/-! DEFINITION. What is to be proved of the block. Every statement about a next state gives that state whole, so that what an
operation leaves unchanged is said with what it changes; every statement holds for every value of the open parameters unless
it names one. The block has no memory, so no statement has a memory clause (20_memory.md R40). -/

open Sys2Proof Sys2Proof.Machine Polynomial

namespace Sys2Proof.Claims

/-- `(OK, none, [])`. -/
def okNone : Result := ⟨.ok, .none, []⟩

/-- `(OK, none, out)`. -/
def okOut (out : List Byte) : Result := ⟨.ok, .none, out⟩

/-- `(OK, res, [])`. -/
def okRes (res : Res) : Result := ⟨.ok, res, []⟩

/-- `(status, none, [])`. -/
def raised (status : Status) : Result := ⟨status, .none, []⟩

/-- FRX with `ST = WAIT_SYNC` and every other register cleared (10_state.md R31, R36). -/
def idleFrx : Frx := ⟨.waitSync, false, 0x00, 0x00, [], 0x0000, 0x0000⟩

/-- The length a packet must have: the opcode byte fixes the format, and with the length field of formats V and S the length
(30_encoding.md R64, R68, R70). -/
def requiredLength : Packet → Option Nat
  | [] => none
  | op :: rest =>
    if op ∈ ([0x00, 0x02, 0x12, 0x13, 0x21, 0x22, 0x23, 0x30, 0x32] : List Byte) then some 1
    else if op ∈ ([0x01, 0x10, 0x11, 0x20, 0x31] : List Byte) then some 2
    else if op ∈ ([0x03, 0x14, 0x15, 0x33] : List Byte) then
      some (3 + ((rest.getD 0 0).toNat + 256 * (rest.getD 1 0).toNat))
    else if op = 0x34 then some 5
    else if op = 0x35 then some 9
    else if op = 0x36 then some 14
    else if op = 0x37 then some 11
    else if op = 0x40 then some (4 + ((rest.getD 1 0).toNat + 256 * (rest.getD 2 0).toNat))
    else none

/-- The statuses other than `OK` an operation can end with (60_exceptions.md R201). -/
def faultsOf : Instr → List Status
  | .frxByte _ => [.checksumError]
  | .frxEos => [.endOfStream]
  | .frxTmo => [.timeout]
  | .ftxSend _ _ => [.payloadTooLarge]
  | .pinDig _ => [.pinDigit]
  | .pinPack _ => [.pinDigit]
  | .pinUnpk _ => [.pinFormat]
  | .recEnc _ _ _ _ => [.invalidArgument]
  | .recDec _ _ _ => [.reservedField, .pinFormat]
  | .crcClr | .crcUpd _ | .crcRd | .crcBlk _ | .escEnc _ | .escDec _ | .escFlush | .escClr | .escEncb _ | .escDecb _
  | .frxClr | .pinClr | .pinRd | .keyXor _ _ => []

/-- The operations that never end with `OK` (60_exceptions.md R201). -/
def neverOk : Instr → Bool
  | .frxEos | .frxTmo => true
  | _ => false

/-- "written by", row `CRC` of 10_state.md R20. -/
def writesCrc : Instr → Bool
  | .crcClr | .crcUpd _ | .crcBlk _ => true
  | _ => false

/-- "written by", row `UPEND` of 10_state.md R20. -/
def writesUpend : Instr → Bool
  | .escDec _ | .escFlush | .escClr | .escDecb _ => true
  | _ => false

/-- "written by", the FRX rows of 10_state.md R20. -/
def writesFrx : Instr → Bool
  | .frxByte _ | .frxEos | .frxTmo | .frxClr => true
  | _ => false

/-- "written by", row `PINACC` of 10_state.md R20. -/
def writesPinacc : Instr → Bool
  | .pinClr | .pinDig _ | .pinPack _ => true
  | _ => false

/-- "read by", row `CRC` of 10_state.md R20. -/
def readsCrc : Instr → Bool
  | .crcUpd _ | .crcRd => true
  | _ => false

/-- "read by", row `UPEND` of 10_state.md R20. -/
def readsUpend : Instr → Bool
  | .escDec _ | .escFlush => true
  | _ => false

/-- "read by", the FRX rows of 10_state.md R20. -/
def readsFrx : Instr → Bool
  | .frxByte _ => true
  | _ => false

/-- "read by", row `PINACC` of 10_state.md R20. -/
def readsPinacc : Instr → Bool
  | .pinDig _ | .pinRd => true
  | _ => false

/-- One turn of the loop of 41_crc.md R80, on numbers. -/
def crcTurn (c : Nat) : Nat := if c / 2 ^ 15 % 2 = 1 then (c * 2 % 2 ^ 16) ^^^ 0x1021 else c * 2 % 2 ^ 16

/-- `crc_byte(c, b)` of 41_crc.md R80, on numbers. -/
def crcByteNumber (c b : Nat) : Nat := crcTurn^[8] (c ^^^ b * 2 ^ 8)

/-- `crc16(s)` of 41_crc.md R81, on numbers. -/
def crc16Number (s : List Byte) : Nat := s.foldl (fun c b => crcByteNumber c b.toNat) 0x0000

/-- The polynomial over GF(2) whose coefficients are the bits of a value. -/
noncomputable def bitsPoly {w : Nat} (v : BitVec w) : (ZMod 2)[X] :=
  ∑ i ∈ Finset.range w, if v.getLsbD i then X ^ i else 0

/-- The polynomial of a byte sequence, the first byte highest, each byte's bit 7 highest. -/
noncomputable def messagePoly (s : List Byte) : (ZMod 2)[X] := s.foldl (fun p b => p * X ^ 8 + bitsPoly b) 0

/-- The generator `x^16 + x^12 + x^5 + 1` (00_scope.md R7). -/
noncomputable def generatorPoly : (ZMod 2)[X] := X ^ 16 + X ^ 12 + X ^ 5 + 1

/-- Every byte `x` of a sequence replaced by the bytes `ys`. -/
def replaceByte (x : Byte) (ys : List Byte) (s : List Byte) : List Byte :=
  s.flatMap fun b => if b = x then ys else [b]

/-- The single left-to-right pass of 42_escape.md R92: `p` says a `7D` is held, `o` is the output so far. -/
def unescapePass : Bool → List Byte → List Byte → List Byte
  | p, o, [] => if p then o ++ [0x7D] else o
  | true, o, b :: rest =>
    if b = 0x5E then unescapePass false (o ++ [0x7E]) rest
    else if b = 0x5D then unescapePass false (o ++ [0x7D]) rest
    else if b = 0x7D then unescapePass true (o ++ [0x7D]) rest
    else unescapePass false (o ++ [0x7D, b]) rest
  | false, o, b :: rest => if b = 0x7D then unescapePass true o rest else unescapePass false (o ++ [b]) rest

/-- No `7E`, and every `7D` immediately followed by `5D` or `5E` (42_escape.md R93). -/
def CanonicalEscaped (y : List Byte) : Prop :=
  (0x7E : Byte) ∉ y ∧
    ∀ i : Nat, y[i]? = some (0x7D : Byte) → y[i + 1]? = some (0x5D : Byte) ∨ y[i + 1]? = some (0x5E : Byte)

/-- In the FRX registers of `s`, the wire byte `b` is taken as the data byte `d` (43_frame_receiver.md R109, R124). -/
def TakenAsData (s : State) (b d : Byte) : Prop :=
  b ≠ 0x7E ∧ s.frx.st ≠ .waitSync ∧
    ((s.frx.escf = false ∧ b ≠ 0x7D ∧ d = b) ∨
      (s.frx.escf = true ∧ (b ≠ 0x7D ∨ s.cfg.escEsc = .data) ∧ d = b ^^^ 0x20))

/-- `TYPE ‖ LEN ‖ PAYLOAD`. -/
def body (type : Byte) (payload : List Byte) : List Byte := [type, BitVec.ofNat 8 payload.length] ++ payload

/-- `[c[7:0], c[15:8]]`. -/
def crcBytes (c : Word16) : List Byte := [BitVec.ofNat 8 c.toNat, BitVec.ofNat 8 (c.toNat / 256)]

/-- The wire bytes of a frame for `type` and `payload` whose two CRC bytes carry `c`. -/
def wireWithCrc (type : Byte) (payload : List Byte) (c : Word16) : List Byte :=
  0x7E :: escape (body type payload ++ crcBytes c)

/-- `s` after FRX took `n` bytes, the first `n - 1` without an outcome and the last with the result `r`, ending idle. -/
def afterFrame (s : State) (n : Nat) (r : Result) : State :=
  { s with frx := idleFrx, rsps := s.rsps ++ List.replicate (n - 1) okNone ++ [r] }

/-- All values are 0 to 9. -/
def AllDigits (ds : List Byte) : Prop := ∀ d ∈ ds, d.toNat ≤ 9

/-- Nibble `i` of a word counted from the top: nibble 0 is bits 31:28 (45_access_codec.md R141's `N7`). -/
def topNibble (w : Word32) (i : Nat) : Nat := w.toNat / 16 ^ (7 - i) % 16

/-- `w` is a canonical packed PIN and `ds` its digits: `k` nibbles `0xF`, then `8 - k` digits, `k` from 0 to 7
(45_access_codec.md R141). -/
def PacksDigits (w : Word32) (ds : List Byte) : Prop :=
  ∃ k, k ≤ 7 ∧ ds.length = 8 - k ∧ (∀ i, i < k → topNibble w i = 15) ∧
    ∀ i, i < 8 - k → topNibble w (k + i) ≤ 9 ∧ (ds.getD i 0).toNat = topNibble w (k + i)

/-- The five bytes of a record with this key, doors mask and type, bits 3 and 2 of the access byte 0
(30_encoding.md R59, R60; 45_access_codec.md R150, R151). -/
def recordOf (c : AccessCode) (key : Word32) (doors : Nat) (t : AccessType) : List Byte :=
  [BitVec.ofNat 8 key.toNat, BitVec.ofNat 8 (key.toNat / 2 ^ 8), BitVec.ofNat 8 (key.toNat / 2 ^ 16),
    BitVec.ofNat 8 (key.toNat / 2 ^ 24), BitVec.ofNat 8 (doors * 16 + (accessCodeOf c t).toNat)]

/-- The key of five record bytes (45_access_codec.md R152). -/
def keyOf (r : RecBytes) : Word32 :=
  BitVec.ofNat 32 (r.b0.toNat + r.b1.toNat * 2 ^ 8 + r.b2.toNat * 2 ^ 16 + r.b3.toNat * 2 ^ 24)

/-- The result of REC.DEC that reports the bytes' own invalid flag, doors mask and key, with this type, PIN and card
(45_access_codec.md R152, R153, R155). -/
def report (r : RecBytes) (t : AccessType) (pin : Option (List Byte)) (card : Option Word32) : Result :=
  ⟨.ok, .record ⟨t, decide (r.b4.toNat / 4 % 2 = 1), BitVec.ofNat 4 (r.b4.toNat / 16), keyOf r, pin, card⟩, []⟩

end Sys2Proof.Claims

open Sys2Proof.Claims

/-! ## The command port -/

/-- Decoding the packet of a well-formed operation gives the operation back (30_encoding.md R64 to R70). -/
def Obligations.DecodeInvertsEncode : Prop :=
  ∀ i : Instr, i.WellFormed → decode (encode i) = .ok i

/-- An accepted packet is the packet of exactly the operation it decodes to: no bit of it is dropped (30_encoding.md R67, R69). -/
def Obligations.EncodeInvertsDecode : Prop :=
  ∀ (p : Packet) (i : Instr), decode p = .ok i → i.WellFormed ∧ encode i = p

/-- A packet is accepted exactly when its opcode is one of the twenty-three and its length is the one its format requires
(30_encoding.md R68, R69, R70). -/
def Obligations.PacketAcceptedExactlyAtItsLength : Prop :=
  ∀ p : Packet, (∃ i, decode p = .ok i) ↔ requiredLength p = some p.length

/-- An illegal or malformed packet is refused before any operation's rule is applied (60_exceptions.md R203). -/
def Obligations.IllegalPacketIsRefused : Prop :=
  ∀ (s : State) (p : Packet) (rest : List Packet), s.cmds = p :: rest → requiredLength p ≠ some p.length →
    step s = .next (State.deliver { s with cmds := rest } (raised .illegalOp))

/-- A step takes the next packet and runs the operation it decodes to, on the state without that packet. -/
def Obligations.StepRunsTheDecodedOperation : Prop :=
  ∀ (s : State) (p : Packet) (rest : List Packet) (i : Instr), s.cmds = p :: rest → decode p = .ok i →
    i.WellFormed → step s = exec i { s with cmds := rest }

/-- With no packet waiting, a step changes nothing: the block holds its registers (60_exceptions.md R213; the model's idle
step is log 1). -/
def Obligations.IdleBlockHoldsItsRegisters : Prop :=
  ∀ s : State, s.cmds = [] → step s = .next s

/-- Packets written out from the formats of 30_encoding.md R64 decode to the operations they stand for. -/
def Obligations.WrittenPacketsDecode : Prop :=
  decode [0x01, 0x31] = .ok (.crcUpd 0x31) ∧
  decode [0x14, 0x03, 0x00, 0x7D, 0x7E, 0x20] = .ok (.escEncb [0x7D, 0x7E, 0x20]) ∧
  decode [0x22] = .ok .frxTmo ∧
  decode [0x34, 0x34, 0x12, 0xFF, 0xFF] = .ok (.pinUnpk 0xFFFF1234) ∧
  decode [0x35, 0xEF, 0xCD, 0xAB, 0x00, 0x34, 0x12, 0xFF, 0xFF] = .ok (.keyXor 0x00ABCDEF 0xFFFF1234) ∧
  decode [0x37, 0xDB, 0xDF, 0x54, 0xFF, 0x33, 0x01, 0x34, 0x12, 0xFF, 0xFF]
    = .ok (.recDec ⟨0xDB, 0xDF, 0x54, 0xFF, 0x33⟩ 0x01 0xFFFF1234) ∧
  decode [0x40, 0x14, 0x02, 0x00, 0x05, 0x00] = .ok (.ftxSend 0x14 [0x05, 0x00])

/-- Operations presented as packets are performed one after another in issue order, one a step (10_state.md R21;
20_memory.md R49). -/
def Obligations.OperationsRunInIssueOrder : Prop :=
  ∀ (ops : List Instr) (s : State) (later : List Packet), (∀ i ∈ ops, i.WellFormed) →
    Host.Core.run Sys2Proof.core ops.length { s with cmds := ops.map encode ++ later } =
      execSeq ops { s with cmds := later }

/-! ## The whole block -/

/-- The block never stops: `k` packets, whatever their bytes, are answered with `k` results, the results before are kept, and
the parameters stay (00_scope.md R12; 60_exceptions.md R200, R210; 10_state.md R38). -/
def Obligations.EveryPacketGetsOneResult : Prop :=
  ∀ (k : Nat) (s : State), k ≤ s.cmds.length → ∃ (t : State) (rs : List Result),
    Host.Core.run Sys2Proof.core k s = .next t ∧ t.rsps = s.rsps ++ rs ∧ rs.length = k ∧
      t.cmds = s.cmds.drop k ∧ t.cfg = s.cfg

/-- Each operation ends with `OK` or with a status 60_exceptions.md R201 lists for it; FRX.EOS and FRX.TMO never with `OK`. -/
def Obligations.StatusesAreThoseOfTheOperation : Prop :=
  ∀ (i : Instr) (s t : State) (r : Result), exec i s = .next t → t.rsps = s.rsps ++ [r] →
    (r.status ∈ faultsOf i ∨ (r.status = .ok ∧ neverOk i = false))

/-- What a status other than `OK` leaves: a refused operation leaves the state as before; an FRX termination leaves FRX idle and
the other units as before; neither delivers a value or a byte (60_exceptions.md R207). -/
def Obligations.FaultLeavesStateByItsClass : Prop :=
  ∀ (s t : State) (r : Result), step s = .next t → t.rsps = s.rsps ++ [r] →
    (r.status ∈ [Status.illegalOp, .reservedField, .payloadTooLarge, .invalidArgument, .pinDigit, .pinFormat] →
      t = State.deliver { s with cmds := s.cmds.tail } (raised r.status)) ∧
    (r.status ∈ [Status.checksumError, .endOfStream, .timeout] →
      t = State.deliver { s with cmds := s.cmds.tail, frx := idleFrx } (raised r.status))

/-- An operation writes no register but those 10_state.md R20 says it writes. -/
def Obligations.OperationWritesOnlyItsRegisters : Prop :=
  ∀ (i : Instr) (s t : State), exec i s = .next t →
    (writesCrc i = false → t.crc = s.crc) ∧ (writesUpend i = false → t.upend = s.upend) ∧
    (writesFrx i = false → t.frx = s.frx) ∧ (writesPinacc i = false → t.pinacc = s.pinacc) ∧
    t.cfg = s.cfg ∧ t.cmds = s.cmds ∧ ∃ r, t.rsps = s.rsps ++ [r]

/-- An operation's result depends only on the registers 10_state.md R20 says it reads (and on the parameters): nothing of an
earlier result or fault, and no other unit's register, reaches it (10_state.md R34; 60_exceptions.md R208). -/
def Obligations.ResultDependsOnlyOnItsRegisters : Prop :=
  ∀ (i : Instr) (s s' t t' : State) (r r' : Result),
    (readsCrc i = true → s.crc = s'.crc) → (readsUpend i = true → s.upend = s'.upend) →
    (readsFrx i = true → s.frx = s'.frx) → (readsPinacc i = true → s.pinacc = s'.pinacc) → s.cfg = s'.cfg →
    exec i s = .next t → t.rsps = s.rsps ++ [r] → exec i s' = .next t' → t'.rsps = s'.rsps ++ [r'] → r = r'

/-- The registers after reset (10_state.md R36). -/
def Obligations.ResetGivesEveryRegisterItsValue : Prop :=
  State.reset.crc = 0x0000 ∧ State.reset.upend = false ∧ State.reset.frx.st = .waitSync ∧
  State.reset.frx.st.code = 0 ∧ State.reset.frx.escf = false ∧ State.reset.frx.type = 0x00 ∧
  State.reset.frx.len = 0x00 ∧ State.reset.frx.pay = [] ∧ State.reset.frx.rcrc = 0x0000 ∧
  State.reset.frx.xcrc = 0x0000 ∧ State.reset.pinacc = 0xFFFFFFFF

/-- From any state, `CRC.CLR; ESC.CLR; FRX.CLR; PIN.CLR` gives the registers their reset values (70_reset_and_hazards.md R221). -/
def Obligations.FourClearsReachTheResetRegisters : Prop :=
  ∀ s : State, execSeq [.crcClr, .escClr, .frxClr, .pinClr] s =
    .next { State.reset with cfg := s.cfg, cmds := s.cmds, rsps := s.rsps ++ [okNone, okNone, okNone, okNone] }

/-- The invariants of 10_state.md R30 (with the model's seventh clause) and of the parameters hold after reset. -/
def Obligations.InvariantHoldsAtReset : Prop := State.reset.Inv

/-- Every step keeps the invariants of 10_state.md R30, from every state that satisfies them. -/
def Obligations.EveryStepKeepsTheInvariant : Prop :=
  ∀ s t : State, s.Inv → step s = .next t → t.Inv

/-! ## The CRC unit -/

/-- CRC.CLR clears the accumulator; CRC.RD reports it and changes nothing (41_crc.md R82, R84). -/
def Obligations.CrcClearAndRead : Prop :=
  ∀ s : State, decode [0x00] = .ok .crcClr ∧ decode [0x02] = .ok .crcRd ∧
    exec .crcClr s = .next (State.deliver { s with crc := 0x0000 } okNone) ∧
    exec .crcRd s = .next (s.deliver (okRes (.u16 s.crc)))

/-- CRC.UPD runs the loop of 41_crc.md R80 on the accumulator, here on numbers (R83; the loop is the one R80 marks as general
knowledge, log 8). -/
def Obligations.CrcUpdRunsTheBitLoop : Prop :=
  ∀ (b : Byte) (s : State), exec (.crcUpd b) s =
    .next (State.deliver { s with crc := BitVec.ofNat 16 (crcByteNumber s.crc.toNat b.toNat) } okNone)

/-- CRC.BLK leaves and reports the fold of the loop from 0 over the block, here on numbers (41_crc.md R81, R85; the loop is
the one R80 marks as general knowledge, log 8). -/
def Obligations.CrcBlkFoldsTheBitLoop : Prop :=
  ∀ (data : List Byte) (s : State), exec (.crcBlk data) s =
    .next (State.deliver { s with crc := BitVec.ofNat 16 (crc16Number data) }
      (okRes (.u16 (BitVec.ofNat 16 (crc16Number data)))))

/-- CRC.BLK is equal in state and result to CRC.CLR, CRC.UPD of each byte, CRC.RD (41_crc.md R85). -/
def Obligations.CrcBlkIsTheByteSequence : Prop :=
  ∀ (data : List Byte) (s : State), ∃ (t t' : State) (rs : List Result) (r : Result),
    execSeq (.crcClr :: (data.map .crcUpd ++ [.crcRd])) s = .next t ∧ t.rsps = s.rsps ++ rs ++ [r] ∧
    exec (.crcBlk data) s = .next t' ∧ t'.rsps = s.rsps ++ [r] ∧ t.SameRegisters t'

/-- For a fixed length, changing any single byte of the block changes the result (41_crc.md R86). -/
def Obligations.SingleByteChangeChangesTheCrc : Prop :=
  ∀ (before after : List Byte) (x y : Byte) (s : State), x ≠ y → ∃ c c' : Word16, c ≠ c' ∧
    exec (.crcBlk (before ++ x :: after)) s = .next (State.deliver { s with crc := c } (okRes (.u16 c))) ∧
    exec (.crcBlk (before ++ y :: after)) s = .next (State.deliver { s with crc := c' } (okRes (.u16 c')))

/-- The CRC is the remainder of the message, shifted up by sixteen, on division by the generator over GF(2)
(10_state.md R22; 00_scope.md R7; 41_crc.md R80, whose loop R80 marks as general knowledge, log 8). -/
def Obligations.CrcIsThePolynomialRemainder : Prop :=
  ∀ (data : List Byte) (s : State), ∃ c : Word16,
    exec (.crcBlk data) s = .next (State.deliver { s with crc := c } (okRes (.u16 c))) ∧
    bitsPoly c = (messagePoly data * X ^ 16) %ₘ generatorPoly

/-! ## The ESC unit -/

/-- ESC.ENC emits the one or two bytes of 42_escape.md R90 and changes nothing (R95). -/
def Obligations.EscEncEmitsTheEscapedByte : Prop :=
  ∀ (b : Byte) (s : State), decode [0x10, b] = .ok (.escEnc b) ∧
    (b = 0x7D → exec (.escEnc b) s = .next (s.deliver (okOut [0x7D, 0x5D]))) ∧
    (b = 0x7E → exec (.escEnc b) s = .next (s.deliver (okOut [0x7D, 0x5E]))) ∧
    (b ≠ 0x7D → b ≠ 0x7E → exec (.escEnc b) s = .next (s.deliver (okOut [b])))

/-- ESC.ENCB emits what the two replacements give, `7D` first, and changes nothing (42_escape.md R91, R96). -/
def Obligations.EscEncbIsTwoReplacements : Prop :=
  ∀ (data : List Byte) (s : State), exec (.escEncb data) s =
    .next (s.deliver (okOut (replaceByte 0x7E [0x7D, 0x5E] (replaceByte 0x7D [0x7D, 0x5D] data))))

/-- The streaming unescape, by the held marker and the byte, its end of buffer and its clear (42_escape.md R97, R98, R99). -/
def Obligations.StreamingUnescapeStepByStep : Prop :=
  ∀ (b : Byte) (s : State),
    decode [0x11, b] = .ok (.escDec b) ∧ decode [0x12] = .ok .escFlush ∧ decode [0x13] = .ok .escClr ∧
    (s.upend = true → b = 0x5E →
      exec (.escDec b) s = .next (State.deliver { s with upend := false } (okOut [0x7E]))) ∧
    (s.upend = true → b = 0x5D →
      exec (.escDec b) s = .next (State.deliver { s with upend := false } (okOut [0x7D]))) ∧
    (s.upend = true → b = 0x7D → exec (.escDec b) s = .next (s.deliver (okOut [0x7D]))) ∧
    (s.upend = true → b ≠ 0x5E → b ≠ 0x5D → b ≠ 0x7D →
      exec (.escDec b) s = .next (State.deliver { s with upend := false } (okOut [0x7D, b]))) ∧
    (s.upend = false → b = 0x7D →
      exec (.escDec b) s = .next (State.deliver { s with upend := true } okNone)) ∧
    (s.upend = false → b ≠ 0x7D → exec (.escDec b) s = .next (s.deliver (okOut [b]))) ∧
    (s.upend = true → exec .escFlush s = .next (State.deliver { s with upend := false } (okOut [0x7D]))) ∧
    (s.upend = false → exec .escFlush s = .next (s.deliver okNone)) ∧
    exec .escClr s = .next (State.deliver { s with upend := false } okNone)

/-- ESC.DECB emits what the single pass of 42_escape.md R92 gives, and clears `UPEND` (R101). -/
def Obligations.EscDecbIsTheSinglePass : Prop :=
  ∀ (data : List Byte) (s : State), exec (.escDecb data) s =
    .next (State.deliver { s with upend := false } (okOut (unescapePass false [] data)))

/-- Unescaping what ESC.ENCB emitted gives the block back (42_escape.md R93). -/
def Obligations.UnescapeInvertsEscape : Prop :=
  ∀ (data : List Byte) (s : State), ∃ wire : List Byte,
    exec (.escEncb data) s = .next (s.deliver (okOut wire)) ∧
    exec (.escDecb wire) s = .next (State.deliver { s with upend := false } (okOut data))

/-- The escaped sequences are exactly the canonical ones, and they are those that escaping an unescaped one gives back
(42_escape.md R93). -/
def Obligations.EscapedSequencesAreTheCanonicalOnes : Prop :=
  ∀ y : List Byte, ((∃ x, y = escape x) ↔ CanonicalEscaped y) ∧ (escape (unescape y) = y ↔ CanonicalEscaped y)

/-- Byte by byte, the ESC unit emits in all what the buffer forms emit, and ends in the same registers
(42_escape.md R101, R102). -/
def Obligations.StreamAndBufferFormsAgree : Prop :=
  ∀ (data : List Byte) (s : State),
    (∃ (t : State) (rs : List Result),
      execSeq (.escClr :: (data.map .escDec ++ [.escFlush])) s = .next t ∧ t.rsps = s.rsps ++ rs ∧
      exec (.escDecb data) s = .next (State.deliver { s with upend := false } (okOut (outputOf rs))) ∧
      t.SameRegisters { s with upend := false }) ∧
    (∃ (t : State) (rs : List Result),
      execSeq (data.map .escEnc) s = .next t ∧ t.rsps = s.rsps ++ rs ∧
      exec (.escEncb data) s = .next (s.deliver (okOut (outputOf rs))) ∧ t.SameRegisters s)

/-! ## The FRX unit -/

/-- A sync byte, in any state, starts a frame from cleared registers; outside a frame every other byte is dropped and nothing
changes (43_frame_receiver.md R107, R108). -/
def Obligations.SyncStartsAFrameAndTheRestIsDropped : Prop :=
  ∀ (b : Byte) (s : State),
    (b = 0x7E → exec (.frxByte b) s =
      .next (State.deliver { s with frx := ⟨.readType, false, 0x00, 0x00, [], 0x0000, 0x0000⟩ } okNone)) ∧
    (b ≠ 0x7E → s.frx.st = .waitSync → exec (.frxByte b) s = .next (s.deliver okNone))

/-- Inside a frame a `7D` sets the escape flag and is no data byte; with the flag set that is so only in the variant `MARK`
(43_frame_receiver.md R109, R124). -/
def Obligations.MarkerSetsTheEscapeFlag : Prop :=
  ∀ s : State, s.frx.st ≠ .waitSync → s.frx.escf = false ∨ s.cfg.escEsc = .mark →
    exec (.frxByte 0x7D) s = .next (State.deliver { s with frx := { s.frx with escf := true } } okNone)

/-- The first two data bytes of a frame are its type and its length; both enter the running CRC, and a length of 0 skips the
payload (43_frame_receiver.md R110, R111). -/
def Obligations.TypeAndLengthAreTaken : Prop :=
  ∀ (s : State) (b d : Byte), TakenAsData s b d →
    (s.frx.st = .readType → exec (.frxByte b) s = .next (State.deliver
      { s with frx := { s.frx with
          st := .readLen, escf := false, type := d
          xcrc := BitVec.ofNat 16 (crcByteNumber s.frx.xcrc.toNat d.toNat) } } okNone)) ∧
    (s.frx.st = .readLen → d = 0x00 → exec (.frxByte b) s = .next (State.deliver
      { s with frx := { s.frx with
          st := .readCrcLo, escf := false, len := d
          xcrc := BitVec.ofNat 16 (crcByteNumber s.frx.xcrc.toNat d.toNat) } } okNone)) ∧
    (s.frx.st = .readLen → d ≠ 0x00 → exec (.frxByte b) s = .next (State.deliver
      { s with frx := { s.frx with
          st := .readPayload, escf := false, len := d
          xcrc := BitVec.ofNat 16 (crcByteNumber s.frx.xcrc.toNat d.toNat) } } okNone))

/-- A payload byte is appended and enters the running CRC; the one that makes the payload `LEN` bytes long ends it
(43_frame_receiver.md R112). -/
def Obligations.PayloadBytesAreAppended : Prop :=
  ∀ (s : State) (b d : Byte), TakenAsData s b d → s.frx.st = .readPayload →
    (s.frx.pay.length + 1 = s.frx.len.toNat → exec (.frxByte b) s = .next (State.deliver
      { s with frx := { s.frx with
          st := .readCrcLo, escf := false, pay := s.frx.pay ++ [d]
          xcrc := BitVec.ofNat 16 (crcByteNumber s.frx.xcrc.toNat d.toNat) } } okNone)) ∧
    (s.frx.pay.length + 1 ≠ s.frx.len.toNat → exec (.frxByte b) s = .next (State.deliver
      { s with frx := { s.frx with
          escf := false, pay := s.frx.pay ++ [d]
          xcrc := BitVec.ofNat 16 (crcByteNumber s.frx.xcrc.toNat d.toNat) } } okNone))

/-- The two CRC bytes come low byte first; on the second the frame is emitted if they match the running CRC and rejected with
`ChecksumError` if not, and either way FRX ends idle (43_frame_receiver.md R113, R114; 10_state.md R28). -/
def Obligations.CrcBytesEmitOrReject : Prop :=
  ∀ (s : State) (b d : Byte), TakenAsData s b d →
    (s.frx.st = .readCrcLo → exec (.frxByte b) s = .next (State.deliver
      { s with frx := { s.frx with
          st := .readCrcHi, escf := false
          rcrc := BitVec.ofNat 16 (d.toNat * 256 + s.frx.rcrc.toNat / 256) } } okNone)) ∧
    (s.frx.st = .readCrcHi → d.toNat * 256 + s.frx.rcrc.toNat / 256 = s.frx.xcrc.toNat →
      exec (.frxByte b) s =
        .next (State.deliver { s with frx := idleFrx } (okRes (.msg s.frx.type s.frx.pay)))) ∧
    (s.frx.st = .readCrcHi → d.toNat * 256 + s.frx.rcrc.toNat / 256 ≠ s.frx.xcrc.toNat →
      exec (.frxByte b) s = .next (State.deliver { s with frx := idleFrx } (raised .checksumError)))

/-- FRX.EOS, FRX.TMO and FRX.CLR leave FRX idle in every state, with `EndOfStream`, `Timeout` and `OK`
(43_frame_receiver.md R115, R116, R117). -/
def Obligations.ChannelEventsEndTheFrame : Prop :=
  ∀ s : State,
    decode [0x21] = .ok .frxEos ∧ decode [0x22] = .ok .frxTmo ∧ decode [0x23] = .ok .frxClr ∧
    exec .frxEos s = .next (State.deliver { s with frx := idleFrx } (raised .endOfStream)) ∧
    exec .frxTmo s = .next (State.deliver { s with frx := idleFrx } (raised .timeout)) ∧
    exec .frxClr s = .next (State.deliver { s with frx := idleFrx } okNone)

/-- FRX.BYTE answers anything but `(OK, none, [])` only on a data byte in `READ_CRC_HI`, and then FRX ends idle
(43_frame_receiver.md R122). -/
def Obligations.OutcomeOnlyOnTheHighCrcByte : Prop :=
  ∀ (s t : State) (b : Byte) (r : Result), exec (.frxByte b) s = .next t → t.rsps = s.rsps ++ [r] → r ≠ okNone →
    s.frx.st = .readCrcHi ∧ (∃ d, TakenAsData s b d) ∧ t.frx = idleFrx ∧
      (r = okRes (.msg s.frx.type s.frx.pay) ∨ r = raised .checksumError)

/-- In a state that satisfies 10_state.md R30, an emitted message has the announced length, at most 255 bytes, and the CRC of its
bytes is the received one, whose low byte is the top byte of `RCRC` (43_frame_receiver.md R114). -/
def Obligations.EmittedMessageHasItsCrc : Prop :=
  ∀ (s t : State) (b type : Byte) (payload : List Byte), s.frx.Inv → exec (.frxByte b) s = .next t →
    t.rsps = s.rsps ++ [okRes (.msg type payload)] →
    payload.length = s.frx.len.toNat ∧ payload.length ≤ 255 ∧
      ∃ d, TakenAsData s b d ∧
        crc16Number (body type payload) = d.toNat * 256 + s.frx.rcrc.toNat / 256

/-- Frame round trip: the bytes FTX.SEND emits, fed to FRX in any state and with any parameters, give `OK, none` for every byte
but the last and the message on the last, and leave FRX idle (43_frame_receiver.md R119). -/
def Obligations.FrameRoundTrip : Prop :=
  ∀ (type : Byte) (payload : List Byte) (s : State), payload.length ≤ 255 → ∃ wire : List Byte,
    exec (.ftxSend type payload) s = .next (s.deliver (okOut wire)) ∧
    ∀ u : State, execSeq (frxFeed wire) u = .next (afterFrame u wire.length (okRes (.msg type payload)))

/-- A frame whose CRC bytes carry any value but its CRC ends in `ChecksumError` on its last byte, and nowhere before
(43_frame_receiver.md R114, R120). -/
def Obligations.WrongCrcIsRejected : Prop :=
  ∀ (type : Byte) (payload : List Byte) (c : Word16) (s : State), payload.length ≤ 255 →
    c.toNat ≠ crc16Number (body type payload) →
    execSeq (frxFeed (wireWithCrc type payload c)) s =
      .next (afterFrame s (wireWithCrc type payload c).length (raised .checksumError))

/-- A frame whose type, or one payload byte, was replaced by another value, its CRC bytes unchanged, ends in `ChecksumError` on
its last byte, always (43_frame_receiver.md R120, first row; 90_conflicts.md C8). -/
def Obligations.SingleByteDamageIsDetected : Prop :=
  ∀ (type type' : Byte) (payload payload' : List Byte) (c : Word16) (s : State), payload.length ≤ 255 →
    c.toNat = crc16Number (body type payload) →
    (type' ≠ type ∧ payload' = payload) ∨
      (type' = type ∧ ∃ before x y after, x ≠ y ∧
        payload = before ++ x :: after ∧ payload' = before ++ y :: after) →
    execSeq (frxFeed (wireWithCrc type' payload' c)) s =
      .next (afterFrame s (wireWithCrc type' payload' c).length (raised .checksumError))

/-- Whatever came before, in whatever state, a complete frame is received: its message is the last result and FRX ends idle
(43_frame_receiver.md R107, R121; 60_exceptions.md R209). -/
def Obligations.FrameAfterNoiseIsReceived : Prop :=
  ∀ (noise : List Byte) (type : Byte) (payload : List Byte) (s : State), payload.length ≤ 255 →
    ∃ rs : List Result, rs.length = noise.length ∧
      execSeq (frxFeed (noise ++ frame type payload)) s =
        .next (afterFrame { s with rsps := s.rsps ++ rs } (frame type payload).length (okRes (.msg type payload)))

/-- The two variants of `P_ESC_ESC` give the same results and the same FRX registers on every wire stream with no `7D 7D`, fed
with no escape pending (43_frame_receiver.md R124). -/
def Obligations.VariantsDifferOnlyOnTwoMarkers : Prop :=
  ∀ (wire : List Byte) (s : State), (¬∃ before after, wire = before ++ 0x7D :: 0x7D :: after) → s.frx.escf = false →
    ∃ t t' : State,
      execSeq (frxFeed wire) { s with cfg := { s.cfg with escEsc := .data } } = .next t ∧
      execSeq (frxFeed wire) { s with cfg := { s.cfg with escEsc := .mark } } = .next t' ∧
      t.frx = t'.frx ∧ t.rsps = t'.rsps

/-- Under `P_ESC_ESC = DATA`, once a sync byte has been taken, 518 wire bytes without a sync (259 data bytes and as many markers)
bring FRX back to `WAIT_SYNC`; under `MARK` a run of `7D` of any length leaves it where it is
(70_reset_and_hazards.md R232). -/
def Obligations.FrameEndsWithinItsBound : Prop :=
  (∀ (wire : List Byte) (s : State), s.cfg.escEsc = .data → wire.length = 518 → (0x7E : Byte) ∉ wire →
    ∃ (k : Nat) (t : State), k ≤ 518 ∧ execSeq (frxFeed (0x7E :: wire.take k)) s = .next t ∧
      t.frx.st = .waitSync) ∧
  (∀ (n : Nat) (s : State), s.cfg.escEsc = .mark → s.frx.st ≠ .waitSync →
    ∃ t : State, execSeq (frxFeed (List.replicate n 0x7D)) s = .next t ∧ t.frx.st = s.frx.st)

/-! ## The FTX unit -/

/-- FTX.SEND emits the sync byte and the escaped body and CRC, low byte first, for a payload of at most 255 bytes, and answers
`PayloadTooLarge` and nothing else for a longer one; it writes no register (44_frame_transmitter.md R130, R131). -/
def Obligations.FtxSendEmitsTheFrame : Prop :=
  ∀ (type : Byte) (payload : List Byte) (s : State),
    (payload.length ≤ 255 → exec (.ftxSend type payload) s = .next (s.deliver (okOut
      (wireWithCrc type payload (BitVec.ofNat 16 (crc16Number (body type payload))))))) ∧
    (255 < payload.length → exec (.ftxSend type payload) s = .next (s.deliver (raised .payloadTooLarge)))

/-- A frame has exactly one `7E`, its first byte, and every `7D` in it starts a pair `7D 5D` or `7D 5E`
(44_frame_transmitter.md R132). -/
def Obligations.FrameHasOneSyncByte : Prop :=
  ∀ (type : Byte) (payload : List Byte) (s : State), payload.length ≤ 255 → ∃ rest : List Byte,
    exec (.ftxSend type payload) s = .next (s.deliver (okOut (0x7E :: rest))) ∧ CanonicalEscaped rest

/-- How long escaping and unescaping can make a sequence; a wire frame has between `5 + n` and `9 + 2n` bytes and never more
than 518, which is reached (42_escape.md R103; 30_encoding.md R57). -/
def Obligations.EscapeAndFrameSizes : Prop :=
  (∀ s : List Byte, s.length ≤ (escape s).length ∧ (escape s).length ≤ 2 * s.length ∧
    (s.length + 1) / 2 ≤ (unescape s).length ∧ (unescape s).length ≤ s.length) ∧
  (∀ (type : Byte) (payload : List Byte), payload.length ≤ 255 →
    5 + payload.length ≤ (frame type payload).length ∧
    (frame type payload).length ≤ 9 + 2 * payload.length ∧ (frame type payload).length ≤ 518) ∧
  ∃ (type : Byte) (payload : List Byte), payload.length = 255 ∧ (frame type payload).length = 518

/-- FTX.SEND emits a sync byte and what ESC.ENCB emits for the body and the CRC that CRC.BLK reports for it; only the CRC unit's
own register tells the two ways apart (44_frame_transmitter.md R133; 41_crc.md R89). -/
def Obligations.FtxSendIsCrcThenEscape : Prop :=
  ∀ (type : Byte) (payload : List Byte) (s : State), payload.length ≤ 255 → ∃ (c : Word16) (wire : List Byte),
    exec (.crcBlk (body type payload)) s = .next (State.deliver { s with crc := c } (okRes (.u16 c))) ∧
    exec (.escEncb (body type payload ++ crcBytes c)) s = .next (s.deliver (okOut wire)) ∧
    exec (.ftxSend type payload) s = .next (s.deliver (okOut (0x7E :: wire)))

/-! ## The ACC unit -/

/-- PIN.CLR loads the start value; PIN.RD reports the accumulator and changes nothing (45_access_codec.md R143, R145). -/
def Obligations.PinClearAndRead : Prop :=
  ∀ s : State, decode [0x30] = .ok .pinClr ∧ decode [0x32] = .ok .pinRd ∧
    exec .pinClr s = .next (State.deliver { s with pinacc := 0xFFFFFFFF } okNone) ∧
    exec .pinRd s = .next (s.deliver (okRes (.u32 s.pinacc)))

/-- PIN.DIG takes a digit in at the bottom and pushes the top nibble out; any other byte is refused and changes nothing
(45_access_codec.md R144). -/
def Obligations.PinDigShiftsOneDigitIn : Prop :=
  ∀ (d : Byte) (s : State), decode [0x31, d] = .ok (.pinDig d) ∧
    (d.toNat ≤ 9 → exec (.pinDig d) s =
      .next (State.deliver { s with pinacc := BitVec.ofNat 32 (s.pinacc.toNat * 16 + d.toNat) } okNone)) ∧
    (9 < d.toNat → exec (.pinDig d) s = .next (s.deliver (raised .pinDigit)))

/-- PIN.PACK is equal in state and result to PIN.CLR, PIN.DIG of each digit, PIN.RD when all are digits, and refuses the whole
block, changing nothing, when one is not (45_access_codec.md R146). -/
def Obligations.PinPackIsTheDigitSequence : Prop :=
  ∀ (ds : List Byte) (s : State),
    (AllDigits ds → ∃ (t : State) (rs : List Result) (v : Word32),
      execSeq (.pinClr :: (ds.map .pinDig ++ [.pinRd])) s = .next t ∧ t.rsps = s.rsps ++ rs ++ [okRes (.u32 v)] ∧
      t.SameRegisters { s with pinacc := v } ∧
      exec (.pinPack ds) s = .next (State.deliver { s with pinacc := v } (okRes (.u32 v)))) ∧
    (¬AllDigits ds → exec (.pinPack ds) s = .next (s.deliver (raised .pinDigit)))

/-- The packed PIN of up to eight digits is `0xF` nibbles and then the digits; of more, that of the last eight
(30_encoding.md R62; 45_access_codec.md R140). -/
def Obligations.PackedPinLayout : Prop :=
  ∀ ds : List Byte, AllDigits ds →
    (ds.length ≤ 8 → ∀ i, i < 8 → topNibble (packPin ds) i =
      if i < 8 - ds.length then 15 else (ds.getD (i - (8 - ds.length)) 0).toNat) ∧
    (8 < ds.length → packPin ds = packPin (ds.drop (ds.length - 8)))

/-- PIN.UNPK reports the digits of a canonical packed PIN and refuses every other word; it changes no register
(45_access_codec.md R141, R147). -/
def Obligations.PinUnpkReadsExactlyCanonicalPins : Prop :=
  ∀ (w : Word32) (s : State), decode (0x34 :: le32 w) = .ok (.pinUnpk w) ∧
    (∀ ds, PacksDigits w ds → exec (.pinUnpk w) s = .next (s.deliver (okRes (.digits ds)))) ∧
    ((¬∃ ds, PacksDigits w ds) → exec (.pinUnpk w) s = .next (s.deliver (raised .pinFormat)))

/-- KEY.XOR reports the bitwise exclusive or and changes nothing (45_access_codec.md R148). -/
def Obligations.KeyXorReportsTheXor : Prop :=
  ∀ (a b : Word32) (s : State), decode (0x35 :: (le32 a ++ le32 b)) = .ok (.keyXor a b) ∧ ∃ k : Word32,
    exec (.keyXor a b) s = .next (s.deliver (okRes (.u32 k))) ∧
    exec (.keyXor b a) s = .next (s.deliver (okRes (.u32 k))) ∧
    exec (.keyXor k b) s = .next (s.deliver (okRes (.u32 a))) ∧
    ∀ i, k.getLsbD i = (a.getLsbD i ^^ b.getLsbD i)

/-- From a combined key and the packed PIN the card is recovered, and from the key and the card the PIN's digits
(45_access_codec.md R142). -/
def Obligations.CombinedKeyGivesCardAndPinBack : Prop :=
  ∀ (ds : List Byte) (card : Word32) (s : State), AllDigits ds → 1 ≤ ds.length → ds.length ≤ 8 →
    ∃ ppin key : Word32,
      exec (.pinPack ds) s = .next (State.deliver { s with pinacc := ppin } (okRes (.u32 ppin))) ∧
      exec (.keyXor card ppin) s = .next (s.deliver (okRes (.u32 key))) ∧
      exec (.keyXor key ppin) s = .next (s.deliver (okRes (.u32 card))) ∧
      exec (.keyXor key card) s = .next (s.deliver (okRes (.u32 ppin))) ∧
      exec (.pinUnpk ppin) s = .next (s.deliver (okRes (.digits ds)))

/-- REC.ENC chooses key and type by its precedence and writes the five record bytes; with no credential given and one required
it answers `InvalidArgument` and emits nothing (45_access_codec.md R149, R150). -/
def Obligations.RecEncByPrecedence : Prop :=
  ∀ (flags : Byte) (ppin card ckey : Word32) (s : State),
    decode (0x36 :: flags :: (le32 ppin ++ le32 card ++ le32 ckey)) = .ok (.recEnc flags ppin card ckey) ∧
    (flags.getLsbD 2 = true → exec (.recEnc flags ppin card ckey) s =
      .next (s.deliver (okOut (recordOf s.cfg.accessCode ckey (flags.toNat / 16) .cardAndPin)))) ∧
    (flags.getLsbD 2 = false → flags.getLsbD 1 = true → flags.getLsbD 0 = true →
      exec (.recEnc flags ppin card ckey) s =
        .next (s.deliver (okOut (recordOf s.cfg.accessCode (card ^^^ ppin) (flags.toNat / 16) .cardAndPin)))) ∧
    (flags.getLsbD 2 = false → flags.getLsbD 1 = true → flags.getLsbD 0 = false →
      exec (.recEnc flags ppin card ckey) s =
        .next (s.deliver (okOut (recordOf s.cfg.accessCode card (flags.toNat / 16) .card)))) ∧
    (flags.getLsbD 2 = false → flags.getLsbD 1 = false → flags.getLsbD 0 = true →
      exec (.recEnc flags ppin card ckey) s =
        .next (s.deliver (okOut (recordOf s.cfg.accessCode ppin (flags.toNat / 16) .pin)))) ∧
    (flags.getLsbD 2 = false → flags.getLsbD 1 = false → flags.getLsbD 0 = false → flags.getLsbD 3 = true →
      exec (.recEnc flags ppin card ckey) s = .next (s.deliver (raised .invalidArgument))) ∧
    (flags.getLsbD 2 = false → flags.getLsbD 1 = false → flags.getLsbD 0 = false → flags.getLsbD 3 = false →
      exec (.recEnc flags ppin card ckey) s =
        .next (s.deliver (okOut (recordOf s.cfg.accessCode s.cfg.keyNone (flags.toNat / 16) .none))))

/-- REC.DEC refuses a reserved selector before it looks at the record, and reports an invalid record as `None` with its doors
mask and key as they stand, whatever the type code and the hint (45_access_codec.md R153, R155). -/
def Obligations.RecDecReservedAndInvalid : Prop :=
  ∀ (r : RecBytes) (hsel : Byte) (hint : Word32) (s : State),
    (2 < hsel.toNat → exec (.recDec r hsel hint) s = .next (s.deliver (raised .reservedField))) ∧
    (hsel.toNat ≤ 2 → r.b4.toNat / 4 % 2 = 1 →
      exec (.recDec r hsel hint) s = .next (s.deliver (report r .none none none)))

/-- REC.DEC of a valid record recovers what its type and the hint allow; bit 3 of the access byte changes nothing, and
`PinFormat` is answered exactly when a key that should hold a PIN does not (45_access_codec.md R154, R155). -/
def Obligations.RecDecRecoversByTypeAndHint : Prop :=
  ∀ (r : RecBytes) (hsel : Byte) (hint : Word32) (t : AccessType) (s : State), s.cfg.Wf → hsel.toNat ≤ 2 →
    r.b4.toNat / 4 % 2 = 0 → (accessCodeOf s.cfg.accessCode t).toNat = r.b4.toNat % 4 →
    (t = .none → exec (.recDec r hsel hint) s = .next (s.deliver (report r .none none none))) ∧
    (t = .card → exec (.recDec r hsel hint) s = .next (s.deliver (report r .card none (some (keyOf r))))) ∧
    (t = .pin → ∀ ds, PacksDigits (keyOf r) ds →
      exec (.recDec r hsel hint) s = .next (s.deliver (report r .pin (some ds) none))) ∧
    (t = .pin → (¬∃ ds, PacksDigits (keyOf r) ds) →
      exec (.recDec r hsel hint) s = .next (s.deliver (raised .pinFormat))) ∧
    (t = .cardAndPin → hsel = 0 →
      exec (.recDec r hsel hint) s = .next (s.deliver (report r .cardAndPin none none))) ∧
    (t = .cardAndPin → hsel = 1 →
      exec (.recDec r hsel hint) s = .next (s.deliver (report r .cardAndPin none (some (keyOf r ^^^ hint))))) ∧
    (t = .cardAndPin → hsel = 2 → ∀ ds, PacksDigits (keyOf r ^^^ hint) ds →
      exec (.recDec r hsel hint) s = .next (s.deliver (report r .cardAndPin (some ds) none))) ∧
    (t = .cardAndPin → hsel = 2 → (¬∃ ds, PacksDigits (keyOf r ^^^ hint) ds) →
      exec (.recDec r hsel hint) s = .next (s.deliver (raised .pinFormat)))

/-- What REC.ENC emits, REC.DEC reads back: never invalid, the same doors mask and key, and the PIN of a PIN record, the card of
a card record, and of a combined record each of the two with the other as hint (45_access_codec.md R157). -/
def Obligations.RecordRoundTrip : Prop :=
  ∀ (flags : Byte) (ds : List Byte) (ppin card ckey : Word32) (r : RecBytes) (s : State), s.cfg.Wf →
    exec (.recEnc flags ppin card ckey) s = .next (s.deliver (okOut r.toList)) →
    (flags.getLsbD 2 = true → ∀ hint,
      exec (.recDec r 0 hint) s = .next (s.deliver (okRes (.record
        ⟨.cardAndPin, false, BitVec.ofNat 4 (flags.toNat / 16), ckey, none, none⟩)))) ∧
    (flags.getLsbD 2 = false → flags.getLsbD 0 = true → flags.getLsbD 1 = false → PacksDigits ppin ds → ∀ hint,
      exec (.recDec r 0 hint) s = .next (s.deliver (okRes (.record
        ⟨.pin, false, BitVec.ofNat 4 (flags.toNat / 16), ppin, some ds, none⟩)))) ∧
    (flags.getLsbD 2 = false → flags.getLsbD 0 = false → flags.getLsbD 1 = true → ∀ hint,
      exec (.recDec r 0 hint) s = .next (s.deliver (okRes (.record
        ⟨.card, false, BitVec.ofNat 4 (flags.toNat / 16), card, none, some card⟩)))) ∧
    (flags.getLsbD 2 = false → flags.getLsbD 0 = true → flags.getLsbD 1 = true →
      exec (.recDec r 1 ppin) s = .next (s.deliver (okRes (.record
        ⟨.cardAndPin, false, BitVec.ofNat 4 (flags.toNat / 16), card ^^^ ppin, none, some card⟩)))) ∧
    (flags.getLsbD 2 = false → flags.getLsbD 0 = true → flags.getLsbD 1 = true → PacksDigits ppin ds →
      exec (.recDec r 2 card) s = .next (s.deliver (okRes (.record
        ⟨.cardAndPin, false, BitVec.ofNat 4 (flags.toNat / 16), card ^^^ ppin, some ds, none⟩)))) ∧
    ∀ (hsel : Byte) (hint : Word32) (d : DecodedRecord),
      exec (.recDec r hsel hint) s = .next (s.deliver (okRes (.record d))) → d.invalid = false
end

