-- ==== Sys2Proof/Laws/ByteOrder.lean ====
section
/-! SUPPORT. Splitting a word into bytes and assembling it again are inverse (00_scope.md R10). -/

namespace Sys2Proof

@[simp] theorem le16_length (v : Word16) : (le16 v).length = 2 := rfl
@[simp] theorem le32_length (v : Word32) : (le32 v).length = 4 := rfl

@[simp] theorem fromLe16_le16 (v : Word16) : fromLe16 (v.extractLsb' 0 8) (v.extractLsb' 8 8) = v := by
  apply BitVec.eq_of_getLsbD_eq
  intro i hi
  simp only [fromLe16, BitVec.getLsbD_append, BitVec.getLsbD_extractLsb']
  by_cases h : i < 8
  · simp [h]
  · have : i - 8 < 8 := by omega
    simp [h, this, Nat.add_sub_cancel' (by omega : 8 ≤ i)]

theorem le16_fromLe16 (b0 b1 : Byte) : le16 (fromLe16 b0 b1) = [b0, b1] := by
  simp only [le16, List.cons.injEq, and_true]
  refine ⟨?_, ?_⟩ <;>
    (apply BitVec.eq_of_getLsbD_eq
     intro i hi
     simp only [fromLe16, BitVec.getLsbD_append, BitVec.getLsbD_extractLsb', hi, decide_true, Bool.true_and])
  · simp [hi]
  · simp

@[simp] theorem fromLe32_le32 (v : Word32) :
    fromLe32 (v.extractLsb' 0 8) (v.extractLsb' 8 8) (v.extractLsb' 16 8) (v.extractLsb' 24 8) = v := by
  apply BitVec.eq_of_getLsbD_eq
  intro i hi
  simp only [fromLe32, BitVec.getLsbD_append, BitVec.getLsbD_extractLsb']
  by_cases h0 : i < 8
  · simp [h0]
  by_cases h1 : i - 8 < 8
  · simp [h0, h1, Nat.add_sub_cancel' (by omega : 8 ≤ i)]
  by_cases h2 : i - 8 - 8 < 8
  · simp [h0, h1, h2]; congr 1; omega
  · have h3 : i - 8 - 8 - 8 < 8 := by omega
    simp [h0, h1, h2, h3]; congr 1; omega

theorem le32_fromLe32 (b0 b1 b2 b3 : Byte) : le32 (fromLe32 b0 b1 b2 b3) = [b0, b1, b2, b3] := by
  simp only [le32, List.cons.injEq, and_true]
  refine ⟨?_, ?_, ?_, ?_⟩ <;>
    (apply BitVec.eq_of_getLsbD_eq
     intro i hi
     simp only [fromLe32, BitVec.getLsbD_append, BitVec.getLsbD_extractLsb', hi, decide_true, Bool.true_and])
  · simp [hi]
  · simp [hi]
  · have h0 : ¬ 16 + i < 8 := by omega
    have h1 : ¬ 16 + i - 8 < 8 := by omega
    have h2 : 16 + i - 8 - 8 = i := by omega
    simp [h0, h1, h2, hi]
  · have h0 : ¬ 24 + i < 8 := by omega
    have h1 : ¬ 24 + i - 8 < 8 := by omega
    have h2 : ¬ 24 + i - 8 - 8 < 8 := by omega
    have h3 : 24 + i - 8 - 8 - 8 = i := by omega
    simp [h0, h1, h2, h3]

/-- The number a little-endian pair stands for (30_encoding.md R67: `n = data[1] + 256·data[2]`). -/
theorem fromLe16_toNat (b0 b1 : Byte) : (fromLe16 b0 b1).toNat = b0.toNat + 256 * b1.toNat := by
  have h := Nat.two_pow_add_eq_or_of_lt b0.isLt b1.toNat
  rw [fromLe16, BitVec.toNat_append, Nat.shiftLeft_eq, Nat.mul_comm b1.toNat, ← h]
  omega

end Sys2Proof
end

