-- ==== Sys2Proof/Laws/State.lean ====
section
/-! SUPPORT. What each named update of the state leaves in each field. -/

namespace Sys2Proof.Machine

variable (s : State) (r : Result) (p : Packet) (f : Frx)

@[simp] theorem State.deliver_crc : (s.deliver r).crc = s.crc := rfl
@[simp] theorem State.deliver_upend : (s.deliver r).upend = s.upend := rfl
@[simp] theorem State.deliver_frx : (s.deliver r).frx = s.frx := rfl
@[simp] theorem State.deliver_pinacc : (s.deliver r).pinacc = s.pinacc := rfl
@[simp] theorem State.deliver_cfg : (s.deliver r).cfg = s.cfg := rfl
@[simp] theorem State.deliver_cmds : (s.deliver r).cmds = s.cmds := rfl
@[simp] theorem State.deliver_rsps : (s.deliver r).rsps = s.rsps ++ [r] := rfl

@[simp] theorem State.present_crc : (s.present p).crc = s.crc := rfl
@[simp] theorem State.present_upend : (s.present p).upend = s.upend := rfl
@[simp] theorem State.present_frx : (s.present p).frx = s.frx := rfl
@[simp] theorem State.present_pinacc : (s.present p).pinacc = s.pinacc := rfl
@[simp] theorem State.present_cfg : (s.present p).cfg = s.cfg := rfl
@[simp] theorem State.present_cmds : (s.present p).cmds = p :: s.cmds := rfl
@[simp] theorem State.present_rsps : (s.present p).rsps = s.rsps := rfl

@[simp] theorem Frx.clear_st : f.clear.st = f.st := rfl
@[simp] theorem Frx.clear_escf : f.clear.escf = false := rfl
@[simp] theorem Frx.clear_type : f.clear.type = 0 := rfl
@[simp] theorem Frx.clear_len : f.clear.len = 0 := rfl
@[simp] theorem Frx.clear_pay : f.clear.pay = [] := rfl
@[simp] theorem Frx.clear_rcrc : f.clear.rcrc = 0 := rfl
@[simp] theorem Frx.clear_xcrc : f.clear.xcrc = 0 := rfl

/-- A frame ends in the reset state of FRX, whatever it held (43_frame_receiver.md R117). -/
theorem Frx.abandon_eq_reset : f.abandon = Frx.reset := rfl

@[simp] theorem Frx.abandon_st : f.abandon.st = .waitSync := rfl
@[simp] theorem Frx.abandon_escf : f.abandon.escf = false := rfl
@[simp] theorem Frx.abandon_type : f.abandon.type = 0 := rfl
@[simp] theorem Frx.abandon_len : f.abandon.len = 0 := rfl
@[simp] theorem Frx.abandon_pay : f.abandon.pay = [] := rfl
@[simp] theorem Frx.abandon_rcrc : f.abandon.rcrc = 0 := rfl
@[simp] theorem Frx.abandon_xcrc : f.abandon.xcrc = 0 := rfl

@[simp] theorem Frx.start_st : f.start.st = .readType := rfl
@[simp] theorem Frx.start_escf : f.start.escf = false := rfl
@[simp] theorem Frx.start_type : f.start.type = 0 := rfl
@[simp] theorem Frx.start_len : f.start.len = 0 := rfl
@[simp] theorem Frx.start_pay : f.start.pay = [] := rfl
@[simp] theorem Frx.start_rcrc : f.start.rcrc = 0 := rfl
@[simp] theorem Frx.start_xcrc : f.start.xcrc = 0 := rfl

/-- The state after a sync byte does not depend on the state before it (43_frame_receiver.md R107). -/
theorem Frx.start_eq_start (g : Frx) : f.start = g.start := rfl

end Sys2Proof.Machine
end

