-- ==== Sys2Proof/Laws/Ops.lean ====
section
/-! SUPPORT. What each shared operation can do, said once: the meanings are proved about through these. -/

namespace Sys2Proof.Machine

/-- Answering is the only way a meaning ends: the next state is the state with the result delivered. -/
theorem State.answer_next {s t : State} {r : Result} (h : s.answer r = .next t) : t = s.deliver r := by
  cases h; rfl

@[simp] theorem State.answer_eq (s : State) (r : Result) : s.answer r = .next (s.deliver r) := rfl

@[simp] theorem okResult_status (res : Res) (out : List Byte) : (okResult res out).status = .ok := rfl
@[simp] theorem okResult_res (res : Res) (out : List Byte) : (okResult res out).res = res := rfl
@[simp] theorem okResult_out (res : Res) (out : List Byte) : (okResult res out).out = out := rfl

@[simp] theorem raise_status (st : Status) : (raise st).status = st := rfl
@[simp] theorem raise_res (st : Status) : (raise st).res = .none := rfl
@[simp] theorem raise_out (st : Status) : (raise st).out = [] := rfl

/-- An FRX termination leaves FRX in its reset state, the other units as they were, and the status as the result. -/
theorem State.terminateFrx_eq (s : State) (st : Status) :
    s.terminateFrx st = .next (State.deliver { s with frx := Frx.reset } (raise st)) := rfl

/-- A refused packet delivers `IllegalOp` and changes no register. -/
theorem refusePacket_eq (s : State) : refusePacket s = .next (s.deliver (raise .illegalOp)) := rfl

/-- Taking a packet: there is none exactly when the host has presented none, and it changes nothing else. -/
theorem fetchPacket_eq_none {s : State} : fetchPacket s = none ↔ s.cmds = [] := by
  unfold fetchPacket; split <;> simp_all

theorem fetchPacket_eq_some {s t : State} {p : Packet} :
    fetchPacket s = some (p, t) ↔ ∃ rest, s.cmds = p :: rest ∧ t = { s with cmds := rest } := by
  unfold fetchPacket
  split
  · simp_all
  · rename_i q rest h
    simp only [Option.some.injEq, Prod.mk.injEq, h, List.cons.injEq]
    constructor
    · rintro ⟨rfl, rfl⟩; exact ⟨rest, ⟨rfl, rfl⟩, rfl⟩
    · rintro ⟨rest', ⟨rfl, rfl⟩, rfl⟩; exact ⟨rfl, rfl⟩

/-- Every operation completes: it ends in a next state, reached by delivering exactly one result to a state that differs from
the one before in registers only. -/
theorem exec_answers (i : Instr) (s : State) :
    ∃ crc upend frx pinacc r, exec i s =
      .next (State.deliver { s with crc := crc, upend := upend, frx := frx, pinacc := pinacc } r) := by
  cases i with
  | pinDig d => unfold exec execPinDig; dsimp only; split <;> exact ⟨_, _, _, _, _, rfl⟩
  | pinPack ds => unfold exec execPinPack; dsimp only; split <;> exact ⟨_, _, _, _, _, rfl⟩
  | ftxSend type payload => unfold exec execFtxSend; dsimp only; split <;> exact ⟨_, _, _, _, _, rfl⟩
  | _ => exact ⟨_, _, _, _, _, rfl⟩

/-- What an operation never touches: the parameters and the packets still to come. -/
theorem exec_next {i : Instr} {s t : State} (h : exec i s = .next t) :
    t.cfg = s.cfg ∧ t.cmds = s.cmds ∧ ∃ r, t.rsps = s.rsps ++ [r] := by
  obtain ⟨_, _, _, _, r, hr⟩ := exec_answers i s
  rw [hr] at h; cases h
  exact ⟨rfl, rfl, r, rfl⟩

/-- What a step can do: nothing when no packet waits; otherwise it takes the packet and either runs the operation it decodes
to or refuses it. -/
theorem step_cases {s t : State} (h : step s = .next t) :
    (s.cmds = [] ∧ t = s) ∨
    (∃ p rest i, s.cmds = p :: rest ∧ decode p = .ok i ∧ exec i { s with cmds := rest } = .next t) ∨
    (∃ p rest e, s.cmds = p :: rest ∧ decode p = .error e ∧
      t = State.deliver { s with cmds := rest } (raise .illegalOp)) := by
  unfold step at h
  split at h
  · rename_i hf; cases h; exact .inl ⟨fetchPacket_eq_none.mp hf, rfl⟩
  · rename_i p s' hf
    obtain ⟨rest, hc, rfl⟩ := fetchPacket_eq_some.mp hf
    split at h
    · rename_i i hd; exact .inr (.inl ⟨p, rest, i, hc, hd, h⟩)
    · rename_i e hd
      rw [refusePacket_eq] at h; cases h
      exact .inr (.inr ⟨p, rest, e, hc, hd, rfl⟩)

end Sys2Proof.Machine
end

