-- ==== Sys2Proof/Laws/Codec.lean ====
section
/-! SUPPORT. The small lemmas of the CRC, escape, PIN and record functions. -/

namespace Sys2Proof.Machine

@[simp] theorem crc16_nil : crc16 [] = crcInit := rfl

/-- A CRC can be accumulated a byte at a time (41_crc.md R81). -/
theorem crc16_append (s t : List Byte) : crc16 (s ++ t) = t.foldl crcByte (crc16 s) := List.foldl_append ..

theorem crc16_concat (s : List Byte) (b : Byte) : crc16 (s ++ [b]) = crcByte (crc16 s) b := by
  rw [crc16_append]; rfl

/-- One turn of the CRC loop is linear over xor. -/
theorem crcShift_xor (a b : Word16) : crcShift (a ^^^ b) = crcShift a ^^^ crcShift b := by
  unfold crcShift
  rw [BitVec.getLsbD_xor, BitVec.shiftLeft_xor_distrib]
  cases a.getLsbD 15 <;> cases b.getLsbD 15 <;> simp
  · exact BitVec.xor_assoc ..
  · rw [BitVec.xor_assoc, BitVec.xor_comm (b <<< 1), ← BitVec.xor_assoc]
  · rw [BitVec.xor_assoc, ← BitVec.xor_assoc crcPoly, BitVec.xor_comm crcPoly, BitVec.xor_assoc (b <<< 1)]
    simp

/-- The CRC loop is linear over xor. -/
theorem crcShifts_xor (k : Nat) (a b : Word16) : crcShifts k (a ^^^ b) = crcShifts k a ^^^ crcShifts k b := by
  induction k generalizing a b with
  | zero => rfl
  | succ k ih => rw [crcShifts, crcShifts, crcShifts, crcShift_xor, ih]

@[simp] theorem escape_nil : escape [] = [] := rfl
@[simp] theorem escape_cons (b : Byte) (s : List Byte) : escape (b :: s) = esc1 b ++ escape s := rfl
theorem escape_append (s t : List Byte) : escape (s ++ t) = escape s ++ escape t := List.flatMap_append ..

/-- A byte escapes to a pair or to itself (42_escape.md R90). -/
theorem esc1_cases (b : Byte) :
    (b = escByte ∧ esc1 b = [escByte, escOfEsc]) ∨ (b = syncByte ∧ esc1 b = [escByte, escOfSync]) ∨
    (b ≠ escByte ∧ b ≠ syncByte ∧ esc1 b = [b]) := by
  unfold esc1
  by_cases h : b = escByte
  · exact .inl ⟨h, if_pos h⟩
  by_cases h' : b = syncByte
  · exact .inr (.inl ⟨h', by rw [if_neg h, if_pos h']⟩)
  · exact .inr (.inr ⟨h, h', by rw [if_neg h, if_neg h']⟩)

/-- One byte of streaming unescape: what becomes of a held marker and of the byte (42_escape.md R97). -/
theorem upendStep_cases (upend : Bool) (b : Byte) :
    (upend = true ∧ b = escOfSync ∧ upendStep upend b = (false, [syncByte])) ∨
    (upend = true ∧ b = escOfEsc ∧ upendStep upend b = (false, [escByte])) ∨
    (upend = true ∧ b = escByte ∧ upendStep upend b = (true, [escByte])) ∨
    (upend = true ∧ b ≠ escOfSync ∧ b ≠ escOfEsc ∧ b ≠ escByte ∧ upendStep upend b = (false, [escByte, b])) ∨
    (upend = false ∧ b = escByte ∧ upendStep upend b = (true, [])) ∨
    (upend = false ∧ b ≠ escByte ∧ upendStep upend b = (false, [b])) := by
  unfold upendStep
  cases upend
  · by_cases h : b = escByte <;> simp [h]
  · by_cases h1 : b = escOfSync
    · simp [h1]
    by_cases h2 : b = escOfEsc
    · simp [h2, escOfSync, escOfEsc]
    by_cases h3 : b = escByte
    · simp [h3, escByte, escOfSync, escOfEsc]
    · simp [h1, h2, h3]

@[simp] theorem replacePair_nil (x y z : Byte) : replacePair x y z [] = [] := rfl
@[simp] theorem replacePair_singleton (x y z a : Byte) : replacePair x y z [a] = [a] := rfl

theorem replacePair_hit (x y z : Byte) (rest : List Byte) :
    replacePair x y z (x :: y :: rest) = z :: replacePair x y z rest := by
  simp [replacePair]

theorem replacePair_miss {x y z a b : Byte} (rest : List Byte) (h : ¬(a = x ∧ b = y)) :
    replacePair x y z (a :: b :: rest) = a :: replacePair x y z (b :: rest) := by
  rw [replacePair, if_neg h]

@[simp] theorem packPin_nil : packPin [] = pinInit := rfl

theorem packPin_concat (ds : List Byte) (d : Byte) : packPin (ds ++ [d]) = pinShift (packPin ds) d := by
  simp [packPin]

/-- A legal hint selector is 0, 1 or 2 (30_encoding.md R66). -/
theorem hintOf_eq_none {hsel : Byte} {hint : Word32} :
    hintOf hsel hint = none ↔ hsel ≠ 0 ∧ hsel ≠ 1 ∧ hsel ≠ 2 := by
  unfold hintOf
  split
  · simp_all
  split
  · simp_all
  split <;> simp_all

/-- Under a bijection, decoding the code of an access type gives the type back (30_encoding.md R61). -/
theorem accessTypeOf_accessCodeOf {c : AccessCode} (h : c.Bijective) (t : AccessType) :
    accessTypeOf c (accessCodeOf c t) = t := by
  simp only [AccessCode.Bijective, List.nodup_cons, List.mem_cons, List.not_mem_nil, or_false, not_or] at h
  obtain ⟨⟨h1, h2, h3⟩, ⟨h4, h5⟩, h6, -⟩ := h
  cases t <;> simp_all [accessTypeOf, accessCodeOf, eq_comm]

end Sys2Proof.Machine
end

