-- ==== Sys2Proof/Laws/Decode.lean ====
section
/-! SUPPORT. The length field of formats V and S, and what it costs a packet (30_encoding.md R64, R70). -/

namespace Sys2Proof

/-- A well-formed block's length survives the `u16` length field. -/
theorem lengthField_toNat {n : Nat} (h : n ≤ maxBlock) : (BitVec.ofNat 16 n).toNat = n := by
  rw [BitVec.toNat_ofNat]; exact Nat.mod_eq_of_lt (by unfold maxBlock at h; omega)

/-- Reading back the length field of an encoded block gives the block's length. -/
theorem fromLe16_lengthField {n : Nat} (h : n ≤ maxBlock) :
    (fromLe16 ((BitVec.ofNat 16 n).extractLsb' 0 8) ((BitVec.ofNat 16 n).extractLsb' 8 8)).toNat = n := by
  rw [fromLe16_le16, lengthField_toNat h]

/-- Data of exactly the announced length is accepted. -/
theorem decodeData_ok (mk : List Byte → Instr) (n : Word16) (data : List Byte) (h : data.length = n.toNat) :
    decodeData mk n data = .ok (mk data) := by
  simp [decodeData, h]

/-- Only data of exactly the announced length is accepted. -/
theorem decodeData_eq_ok {mk : List Byte → Instr} {n : Word16} {data : List Byte} {i : Instr}
    (h : decodeData mk n data = .ok i) : data.length = n.toNat ∧ i = mk data := by
  unfold decodeData at h
  split at h
  · cases h
  split at h
  · rename_i hl; cases h; exact ⟨hl, rfl⟩
  · cases h

/-- The length of a format V packet. -/
theorem encodeV_length (op : Byte) {data : List Byte} (h : data.length ≤ maxBlock) :
    (encodeV op data).length =
      Format.v.packetLength ((encodeV op data).getD 1 0) ((encodeV op data).getD 2 0) ((encodeV op data).getD 3 0) := by
  have hn := fromLe16_lengthField h
  show data.length + 1 + 1 + 1 = 3 + (fromLe16 ((BitVec.ofNat 16 data.length).extractLsb' 0 8) _).toNat
  rw [Nat.add_comm 3]
  exact congrArg (· + 3) hn.symm

/-- The length of a format S packet. -/
theorem encodeS_length (type : Byte) {payload : List Byte} (h : payload.length ≤ maxBlock) :
    (encode (.ftxSend type payload)).length =
      Format.s.packetLength ((encode (.ftxSend type payload)).getD 1 0) ((encode (.ftxSend type payload)).getD 2 0)
        ((encode (.ftxSend type payload)).getD 3 0) := by
  have hn := fromLe16_lengthField h
  show payload.length + 1 + 1 + 1 + 1 = 4 + (fromLe16 ((BitVec.ofNat 16 payload.length).extractLsb' 0 8) _).toNat
  rw [Nat.add_comm 4]
  exact congrArg (· + 4) hn.symm

end Sys2Proof
end

