-- ==== Sys2Proof/Machine/Asm.lean ====
section
/-! DEFINITION. The written form of an operation: its mnemonic, then its operands separated by commas
(30_encoding.md R71, log 15). -/

namespace Sys2Proof.Machine

/-- The mnemonic of an operation (30_encoding.md R68). -/
def mnemonic : Instr → String
  | .crcClr => "CRC.CLR"
  | .crcUpd _ => "CRC.UPD"
  | .crcRd => "CRC.RD"
  | .crcBlk _ => "CRC.BLK"
  | .escEnc _ => "ESC.ENC"
  | .escDec _ => "ESC.DEC"
  | .escFlush => "ESC.FLUSH"
  | .escClr => "ESC.CLR"
  | .escEncb _ => "ESC.ENCB"
  | .escDecb _ => "ESC.DECB"
  | .frxByte _ => "FRX.BYTE"
  | .frxEos => "FRX.EOS"
  | .frxTmo => "FRX.TMO"
  | .frxClr => "FRX.CLR"
  | .pinClr => "PIN.CLR"
  | .pinDig _ => "PIN.DIG"
  | .pinRd => "PIN.RD"
  | .pinPack _ => "PIN.PACK"
  | .pinUnpk _ => "PIN.UNPK"
  | .keyXor _ _ => "KEY.XOR"
  | .recEnc _ _ _ _ => "REC.ENC"
  | .recDec _ _ _ => "REC.DEC"
  | .ftxSend _ _ => "FTX.SEND"

/-- One hexadecimal digit. -/
def hexDigit (n : Nat) : Char := "0123456789ABCDEF".toList.getD n '0'

/-- The lowest `k` hexadecimal digits of `n`, highest first. -/
def hexDigits : Nat → Nat → List Char
  | 0, _ => []
  | k + 1, n => hexDigits k (n / 16) ++ [hexDigit (n % 16)]

/-- A number in C notation with `k` hexadecimal digits. -/
def hexNumber (k n : Nat) : String := "0x" ++ String.ofList (hexDigits k n)

/-- Words separated by a separator. -/
def joined (separator : String) : List String → String
  | [] => ""
  | [w] => w
  | w :: rest => w ++ separator ++ joined separator rest

/-- A byte sequence: hexadecimal without the prefix, separated by spaces (00_scope.md R9). -/
def byteList (bs : List Byte) : String :=
  "[" ++ joined " " (bs.map fun b => String.ofList (hexDigits 2 b.toNat)) ++ "]"

/-- A digit sequence, in decimal. -/
def digitList (ds : List Byte) : String := "[" ++ joined " " (ds.map fun d => toString d.toNat) ++ "]"

/-- A `u8` operand. -/
def num8 (b : Byte) : String := hexNumber 2 b.toNat

/-- A `u32` operand. -/
def num32 (w : Word32) : String := hexNumber 8 w.toNat

/-- A word when a condition holds, nothing otherwise. -/
def wordIf (c : Bool) (word : String) : List String := if c then [word] else []

/-- The operands of REC.ENC: a field is written when its `has_` bit is set. -/
def recEncOperands (flags : Byte) (ppin card ckey : Word32) : List String :=
  wordIf (flags.getLsbD 0) ("pin=" ++ num32 ppin) ++ wordIf (flags.getLsbD 1) ("card=" ++ num32 card)
    ++ wordIf (flags.getLsbD 2) ("ckey=" ++ num32 ckey)
    ++ ["doors=" ++ hexNumber 1 (flags.toNat / 16)] ++ wordIf (flags.getLsbD 3) "req"

/-- The hint operand of REC.DEC. -/
def hintOperand (hsel : Byte) (hint : Word32) : List String :=
  match hsel.toNat with
  | 0 => []
  | 1 => ["pin=" ++ num32 hint]
  | 2 => ["card=" ++ num32 hint]
  | n => ["hsel=" ++ toString n]

/-- The operands of an operation as written. -/
def operandsText : Instr → List String
  | .crcClr | .crcRd | .escFlush | .escClr | .frxEos | .frxTmo | .frxClr | .pinClr | .pinRd => []
  | .crcUpd b | .escEnc b | .escDec b | .frxByte b => [num8 b]
  | .crcBlk data | .escEncb data | .escDecb data => [byteList data]
  | .pinDig d => [toString d.toNat]
  | .pinPack ds => [digitList ds]
  | .pinUnpk w => [num32 w]
  | .keyXor a b => [num32 a, num32 b]
  | .recEnc flags ppin card ckey => recEncOperands flags ppin card ckey
  | .recDec record hsel hint => byteList record.toList :: hintOperand hsel hint
  | .ftxSend type payload => [num8 type, byteList payload]

/-- An operation as written (30_encoding.md R71). -/
def asm (i : Instr) : String :=
  match operandsText i with
  | [] => mnemonic i
  | operands => mnemonic i ++ " " ++ joined ", " operands

end Sys2Proof.Machine
end

