-- ==== Sys2Proof/Laws/PerInstr.lean ====
section
/-! SUPPORT. Statements about every operation as syntax, one lemma per constructor. `Encoded`: the packet of a well-formed
operation begins with the opcode of the row of the opcode map that has the operation's mnemonic, and is as long as that row's
format requires (30_encoding.md R64, R68, R70). -/

namespace Sys2Proof.Laws.Encoded

/-- The packet begins with the opcode of its mnemonic's row and has the length that row's format requires. -/
def Statement (i : Instr) : Prop :=
  i.WellFormed → ∃ row ∈ opcodeMap, row.mnemonic = Machine.mnemonic i ∧
    (encode i).head? = some row.opcode ∧
    (encode i).length =
      row.format.packetLength ((encode i).getD 1 0) ((encode i).getD 2 0) ((encode i).getD 3 0)

theorem crcClr : Statement .crcClr := fun _ => ⟨⟨0x00, "CRC.CLR", .n⟩, by simp [opcodeMap], rfl, rfl, rfl⟩
theorem crcUpd (b : Byte) : Statement (.crcUpd b) :=
  fun _ => ⟨⟨0x01, "CRC.UPD", .b⟩, by simp [opcodeMap], rfl, rfl, rfl⟩
theorem crcRd : Statement .crcRd := fun _ => ⟨⟨0x02, "CRC.RD", .n⟩, by simp [opcodeMap], rfl, rfl, rfl⟩
theorem crcBlk (data : List Byte) : Statement (.crcBlk data) :=
  fun h => ⟨⟨0x03, "CRC.BLK", .v⟩, by simp [opcodeMap], rfl, rfl, encodeV_length 0x03 (of_decide_eq_true h)⟩
theorem escEnc (b : Byte) : Statement (.escEnc b) :=
  fun _ => ⟨⟨0x10, "ESC.ENC", .b⟩, by simp [opcodeMap], rfl, rfl, rfl⟩
theorem escDec (b : Byte) : Statement (.escDec b) :=
  fun _ => ⟨⟨0x11, "ESC.DEC", .b⟩, by simp [opcodeMap], rfl, rfl, rfl⟩
theorem escFlush : Statement .escFlush := fun _ => ⟨⟨0x12, "ESC.FLUSH", .n⟩, by simp [opcodeMap], rfl, rfl, rfl⟩
theorem escClr : Statement .escClr := fun _ => ⟨⟨0x13, "ESC.CLR", .n⟩, by simp [opcodeMap], rfl, rfl, rfl⟩
theorem escEncb (data : List Byte) : Statement (.escEncb data) :=
  fun h => ⟨⟨0x14, "ESC.ENCB", .v⟩, by simp [opcodeMap], rfl, rfl, encodeV_length 0x14 (of_decide_eq_true h)⟩
theorem escDecb (data : List Byte) : Statement (.escDecb data) :=
  fun h => ⟨⟨0x15, "ESC.DECB", .v⟩, by simp [opcodeMap], rfl, rfl, encodeV_length 0x15 (of_decide_eq_true h)⟩
theorem frxByte (b : Byte) : Statement (.frxByte b) :=
  fun _ => ⟨⟨0x20, "FRX.BYTE", .b⟩, by simp [opcodeMap], rfl, rfl, rfl⟩
theorem frxEos : Statement .frxEos := fun _ => ⟨⟨0x21, "FRX.EOS", .n⟩, by simp [opcodeMap], rfl, rfl, rfl⟩
theorem frxTmo : Statement .frxTmo := fun _ => ⟨⟨0x22, "FRX.TMO", .n⟩, by simp [opcodeMap], rfl, rfl, rfl⟩
theorem frxClr : Statement .frxClr := fun _ => ⟨⟨0x23, "FRX.CLR", .n⟩, by simp [opcodeMap], rfl, rfl, rfl⟩
theorem pinClr : Statement .pinClr := fun _ => ⟨⟨0x30, "PIN.CLR", .n⟩, by simp [opcodeMap], rfl, rfl, rfl⟩
theorem pinDig (d : Byte) : Statement (.pinDig d) :=
  fun _ => ⟨⟨0x31, "PIN.DIG", .b⟩, by simp [opcodeMap], rfl, rfl, rfl⟩
theorem pinRd : Statement .pinRd := fun _ => ⟨⟨0x32, "PIN.RD", .n⟩, by simp [opcodeMap], rfl, rfl, rfl⟩
theorem pinPack (ds : List Byte) : Statement (.pinPack ds) :=
  fun h => ⟨⟨0x33, "PIN.PACK", .v⟩, by simp [opcodeMap], rfl, rfl, encodeV_length 0x33 (of_decide_eq_true h)⟩
theorem pinUnpk (w : Word32) : Statement (.pinUnpk w) :=
  fun _ => ⟨⟨0x34, "PIN.UNPK", .w⟩, by simp [opcodeMap], rfl, rfl, rfl⟩
theorem keyXor (a b : Word32) : Statement (.keyXor a b) :=
  fun _ => ⟨⟨0x35, "KEY.XOR", .x⟩, by simp [opcodeMap], rfl, rfl, rfl⟩
theorem recEnc (flags : Byte) (ppin card ckey : Word32) : Statement (.recEnc flags ppin card ckey) :=
  fun _ => ⟨⟨0x36, "REC.ENC", .r⟩, by simp [opcodeMap], rfl, rfl, rfl⟩
theorem recDec (record : RecBytes) (hsel : Byte) (hint : Word32) : Statement (.recDec record hsel hint) :=
  fun _ => ⟨⟨0x37, "REC.DEC", .d⟩, by simp [opcodeMap], rfl, rfl, rfl⟩
theorem ftxSend (type : Byte) (payload : List Byte) : Statement (.ftxSend type payload) :=
  fun h => ⟨⟨0x40, "FTX.SEND", .s⟩, by simp [opcodeMap], rfl, rfl, encodeS_length type (of_decide_eq_true h)⟩

end Sys2Proof.Laws.Encoded
end

