-- ==== Sys2Proof/Laws/Receiver.lean ====
section
/-! SUPPORT. What escape removal and FRX.BYTE can do, said once (43_frame_receiver.md R106 to R114). -/

namespace Sys2Proof.Machine

/-- Escape removal takes a byte as a marker, as an escaped data byte or as a plain data byte (43_frame_receiver.md R109, R124). -/
theorem escfStep_cases (variant : EscEsc) (escf : Bool) (b : Byte) :
    (b = escByte ∧ (escf = false ∨ variant = .mark) ∧ escfStep variant escf b = (true, none)) ∨
    (escf = true ∧ (b ≠ escByte ∨ variant = .data) ∧ escfStep variant escf b = (false, some (b ^^^ escXor))) ∨
    (escf = false ∧ b ≠ escByte ∧ escfStep variant escf b = (false, some b)) := by
  unfold escfStep
  by_cases hb : b = escByte <;> cases escf <;> cases variant <;> simp [hb]

/-- The data-byte part of FRX.BYTE never touches the escape flag, except by ending the frame. -/
theorem frxData_escf {f : Frx} {d : Byte} (h : f.st ≠ .readCrcHi) : (frxData f d).1.escf = f.escf := by
  unfold frxData; split <;> first | rfl | exact absurd ‹_› h

/-- Before the high CRC byte a data byte has no outcome (43_frame_receiver.md R122). -/
theorem frxData_result {f : Frx} {d : Byte} (h : f.st ≠ .readCrcHi) : (frxData f d).2 = frxOk := by
  unfold frxData; split <;> first | rfl | exact absurd ‹_› h

/-- The high CRC byte ends the frame either way (43_frame_receiver.md R114). -/
theorem frxData_readCrcHi {f : Frx} {d : Byte} (h : f.st = .readCrcHi) :
    (frxData f d).1 = Frx.reset ∧
      (frxData f d).2 =
        if rcrcShift f.rcrc d = f.xcrc then okResult (.msg f.type f.pay) [] else raise .checksumError := by
  unfold frxData; rw [h]; dsimp only; split <;> exact ⟨rfl, rfl⟩

/-- What FRX.BYTE does with a wire byte: it starts a frame, drops the byte, takes it as a marker, or takes it as a data byte
with the escape flag clear. -/
theorem frxByte_cases (variant : EscEsc) (f : Frx) (b : Byte) :
    (b = syncByte ∧ frxByte variant f b = (Frx.start f, frxOk)) ∨
    (b ≠ syncByte ∧ f.st = .waitSync ∧ frxByte variant f b = (f, frxOk)) ∨
    (b = escByte ∧ f.st ≠ .waitSync ∧ (f.escf = false ∨ variant = .mark) ∧
      frxByte variant f b = ({ f with escf := true }, frxOk)) ∨
    (∃ d, b ≠ syncByte ∧ f.st ≠ .waitSync ∧
      ((f.escf = true ∧ (b ≠ escByte ∨ variant = .data) ∧ d = b ^^^ escXor) ∨
        (f.escf = false ∧ b ≠ escByte ∧ d = b)) ∧
      frxByte variant f b = frxData { f with escf := false } d) := by
  by_cases hs : b = syncByte
  · exact .inl ⟨hs, by simp [frxByte, hs]⟩
  by_cases hw : f.st = .waitSync
  · exact .inr (.inl ⟨hs, hw, by simp [frxByte, hs, hw]⟩)
  right; right
  rcases escfStep_cases variant f.escf b with ⟨hb, he, h⟩ | ⟨he, hb, h⟩ | ⟨he, hb, h⟩
  · refine .inl ⟨hb, hw, he, ?_⟩
    unfold frxByte; rw [if_neg hs, if_neg hw, h]
  · refine .inr ⟨b ^^^ escXor, hs, hw, .inl ⟨he, hb, rfl⟩, ?_⟩
    unfold frxByte; rw [if_neg hs, if_neg hw, h]
  · refine .inr ⟨b, hs, hw, .inr ⟨he, hb, rfl⟩, ?_⟩
    unfold frxByte; rw [if_neg hs, if_neg hw, h]

/-- FRX.BYTE as one equation: only FRX changes. -/
theorem execFrxByte_eq (b : Byte) (s : State) :
    execFrxByte b s = .next
      (State.deliver { s with frx := (frxByte s.cfg.escEsc s.frx b).1 } (frxByte s.cfg.escEsc s.frx b).2) := rfl

end Sys2Proof.Machine
end

