-- ==== Sys2Proof/Tests/Slice0.lean ====
section
/-! SUPPORT. Tests of the model on fixed values. Expected results are those of 95_test_vectors.md and
96_test_vectors_frx_acc.md (their section in each comment) or written out by hand from the rule named; none is the model's own
answer. After them, one witness for the hypotheses of each statement that has any. -/

open Sys2Proof Sys2Proof.Machine Sys2Proof.Claims

namespace Sys2Proof.Tests

/-! ## Helpers -/

/-- The next state of an outcome. -/
def after : Out → Option State
  | .next t => some t
  | _ => none

/-- The last result an outcome's next state delivered. -/
def answered (o : Out) : Option Result := (after o).bind (·.rsps.getLast?)

theorem next_of_after {o : Out} {t : State} (h : after o = some t) : o = .next t := by
  cases o with
  | next u => cases h; rfl
  | fault e => cases h
  | refused e => cases h

/-- The start state of program P5 and of 96 section 2.6: a held escape, a frame in progress, two digits. -/
def busy : State :=
  { State.reset with
    crc := 0x6131, upend := true, frx := ⟨.readLen, false, 0x14, 0x00, [], 0x0000, 0x52B5⟩, pinacc := 0xFFFFFF42 }

/-- The reset state with these FRX registers. -/
def withFrx (f : Frx) : State := { State.reset with frx := f }

/-- The reset state with `P_ESC_ESC = MARK` and these FRX registers. -/
def markFrx (f : Frx) : State := { withFrx f with cfg := { defaultConfig with escEsc := .mark } }

/-- The reset state with these packets waiting. -/
def waiting (ps : List Packet) : State := { State.reset with cmds := ps }

/-! ## WellFormed: an ill-formed term for each check (30_encoding.md R70: a `u16` counts the data) -/

/-- One byte more than a `u16` counts. -/
def tooLong : List Byte := List.replicate 65536 0x00

theorem tooLong_length : tooLong.length = 65536 := by unfold tooLong; exact List.length_replicate

theorem test_wf_crcBlk : (Instr.crcBlk tooLong).wellFormed = false := by simp [Instr.wellFormed, maxBlock, tooLong_length]
theorem test_wf_escEncb : (Instr.escEncb tooLong).wellFormed = false := by
  simp [Instr.wellFormed, maxBlock, tooLong_length]
theorem test_wf_escDecb : (Instr.escDecb tooLong).wellFormed = false := by
  simp [Instr.wellFormed, maxBlock, tooLong_length]
theorem test_wf_pinPack : (Instr.pinPack tooLong).wellFormed = false := by
  simp [Instr.wellFormed, maxBlock, tooLong_length]
theorem test_wf_ftxSend : (Instr.ftxSend 0x00 tooLong).wellFormed = false := by
  simp [Instr.wellFormed, maxBlock, tooLong_length]

/-! ## Decode: every operation from a packet written out (30_encoding.md R64, R68; packets of 95 and 96) -/

theorem test_decode_crcClr : decode [0x00] = .ok .crcClr := by decide
theorem test_decode_crcUpd : decode [0x01, 0x7E] = .ok (.crcUpd 0x7E) := by decide
theorem test_decode_crcRd : decode [0x02] = .ok .crcRd := by decide
theorem test_decode_crcBlk : decode [0x03, 0x01, 0x00, 0xFF] = .ok (.crcBlk [0xFF]) := by decide
theorem test_decode_escEnc : decode [0x10, 0x7D] = .ok (.escEnc 0x7D) := by decide
theorem test_decode_escDec : decode [0x11, 0x5E] = .ok (.escDec 0x5E) := by decide
theorem test_decode_escFlush : decode [0x12] = .ok .escFlush := by decide
theorem test_decode_escClr : decode [0x13] = .ok .escClr := by decide
theorem test_decode_escEncb : decode [0x14, 0x02, 0x00, 0x7D, 0x7E] = .ok (.escEncb [0x7D, 0x7E]) := by decide
theorem test_decode_escDecb : decode [0x15, 0x02, 0x00, 0x7D, 0x5E] = .ok (.escDecb [0x7D, 0x5E]) := by decide
theorem test_decode_frxByte : decode [0x20, 0x7E] = .ok (.frxByte 0x7E) := by decide
theorem test_decode_frxEos : decode [0x21] = .ok .frxEos := by decide
theorem test_decode_frxTmo : decode [0x22] = .ok .frxTmo := by decide
theorem test_decode_frxClr : decode [0x23] = .ok .frxClr := by decide
theorem test_decode_pinClr : decode [0x30] = .ok .pinClr := by decide
theorem test_decode_pinDig : decode [0x31, 0x0A] = .ok (.pinDig 10) := by decide
theorem test_decode_pinRd : decode [0x32] = .ok .pinRd := by decide
theorem test_decode_pinPack : decode [0x33, 0x02, 0x00, 0x01, 0x02] = .ok (.pinPack [1, 2]) := by decide
theorem test_decode_pinUnpk : decode [0x34, 0x34, 0x12, 0xFF, 0xFF] = .ok (.pinUnpk 0xFFFF1234) := by decide
theorem test_decode_keyXor :
    decode [0x35, 0xEF, 0xCD, 0xAB, 0x00, 0x34, 0x12, 0xFF, 0xFF] = .ok (.keyXor 0x00ABCDEF 0xFFFF1234) := by decide
theorem test_decode_recEnc :
    decode [0x36, 0x3B, 0x34, 0x12, 0xFF, 0xFF, 0xEF, 0xCD, 0xAB, 0x00, 0x00, 0x00, 0x00, 0x00]
      = .ok (.recEnc 0x3B 0xFFFF1234 0x00ABCDEF 0x00000000) := by decide
theorem test_decode_recDec :
    decode [0x37, 0xDB, 0xDF, 0x54, 0xFF, 0x33, 0x01, 0x34, 0x12, 0xFF, 0xFF]
      = .ok (.recDec ⟨0xDB, 0xDF, 0x54, 0xFF, 0x33⟩ 1 0xFFFF1234) := by decide
theorem test_decode_ftxSend : decode [0x40, 0xFF, 0x01, 0x00, 0xFE] = .ok (.ftxSend 0xFF [0xFE]) := by decide

/-- Illegal and malformed packets of 96 section 2.6, each by its reason. -/
theorem test_decode_rejects :
    decode [] = .error .emptyPacket ∧ decode [0x04] = .error .unknownOpcode ∧ decode [0x16] = .error .unknownOpcode ∧
    decode [0xFF, 0x00, 0x00] = .error .unknownOpcode ∧ decode [0x01] = .error .tooShort ∧
    decode [0x00, 0x00] = .error .tooLong ∧ decode [0x03, 0x03, 0x00, 0x01, 0x02] = .error .tooShort ∧
    decode [0x03, 0x00] = .error .tooShort ∧ decode [0x03, 0x01, 0x00, 0x01, 0x02] = .error .tooLong ∧
    decode [0x34, 0x34, 0x12, 0xFF] = .error .tooShort ∧ decode [0x40, 0x00, 0x01, 0x00] = .error .tooShort ∧
    decode [0x37, 0, 0, 0, 0, 0, 0, 0, 0, 0, 0, 0] = .error .tooLong := by decide

/-- The length field is little-endian: 256 data bytes are announced by `00 01` (30_encoding.md R64, R67). -/
theorem test_lengthField_is_little_endian : (encodeV 0x03 (List.replicate 256 0)).take 3 = [0x03, 0x00, 0x01] := by
  decide +kernel

/-- Table words: the opcode alone of a format V row is an empty block; a format W row has 40 bits. -/
theorem test_decodeTableWord :
    decodeTableWord 8 0x03 = some (.crcBlk []) ∧ decodeTableWord 40 0xFFFF123434 = some (.pinUnpk 0xFFFF1234) ∧
    decodeTableWord 8 0x04 = none ∧ decodeTableWord 16 0x3101 = some (.crcUpd 0x31) := by decide

/-- The presented word is what the next step runs. -/
theorem test_withFetchWord :
    after (step (State.reset.withFetchWord 16 0x0101)) =
      some { State.reset with crc := 0x1021, rsps := [⟨.ok, .none, []⟩] } := by decide +kernel

/-! ## CRC (95 section 2.1) -/

theorem test_crcClr : after (exec .crcClr busy) = some { busy with crc := 0x0000, rsps := [⟨.ok, .none, []⟩] } := by decide
theorem test_crcUpd_after_1021 :
    after (exec (.crcUpd 0x7E) { busy with crc := 0x1021 }) = some { busy with crc := 0xAC68, rsps := [⟨.ok, .none, []⟩] } := by
  decide +kernel
theorem test_crcUpd_top_bit_only :
    after (exec (.crcUpd 0x80) { busy with crc := 0x8000 }) = some { busy with crc := 0x0000, rsps := [⟨.ok, .none, []⟩] } := by
  decide +kernel
theorem test_crcRd : after (exec .crcRd busy) = some { busy with rsps := [⟨.ok, .u16 0x6131, []⟩] } := by decide
theorem test_crcBlk_catalogue_check_value :
    after (exec (.crcBlk [0x31, 0x32, 0x33, 0x34, 0x35, 0x36, 0x37, 0x38, 0x39]) busy) =
      some { busy with crc := 0x31C3, rsps := [⟨.ok, .u16 0x31C3, []⟩] } := by decide +kernel
theorem test_crcBlk_empty_loses_the_old_value :
    after (exec (.crcBlk []) busy) = some { busy with crc := 0x0000, rsps := [⟨.ok, .u16 0x0000, []⟩] } := by decide

/-! ## ESC (95 part 1 S1 and section 2.2; 42_escape.md R97 to R99) -/

theorem test_escEnc_sync : after (exec (.escEnc 0x7E) busy) = some { busy with rsps := [⟨.ok, .none, [0x7D, 0x5E]⟩] } := by
  decide
theorem test_escEnc_marker : after (exec (.escEnc 0x7D) busy) = some { busy with rsps := [⟨.ok, .none, [0x7D, 0x5D]⟩] } := by
  decide
theorem test_escDec_marker_after_marker :
    after (exec (.escDec 0x7D) busy) = some { busy with rsps := [⟨.ok, .none, [0x7D]⟩] } := by decide
theorem test_escDec_sync_with_marker_held :
    after (exec (.escDec 0x7E) busy) = some { busy with upend := false, rsps := [⟨.ok, .none, [0x7D, 0x7E]⟩] } := by decide
theorem test_escFlush : after (exec .escFlush busy) = some { busy with upend := false, rsps := [⟨.ok, .none, [0x7D]⟩] } := by
  decide
theorem test_escClr : after (exec .escClr busy) = some { busy with upend := false, rsps := [⟨.ok, .none, []⟩] } := by decide
theorem test_escEncb :
    answered (exec (.escEncb [0x00, 0x7D, 0xFF, 0x7E, 0x01]) busy) =
      some ⟨.ok, .none, [0x00, 0x7D, 0x5D, 0xFF, 0x7D, 0x5E, 0x01]⟩ := by decide
/-- `7D 7D 5E`: the first pass turns the last two into `7E`, the second finds nothing (42_escape.md R92). -/
theorem test_escDecb_two_passes :
    after (exec (.escDecb [0x7D, 0x7D, 0x5E, 0x7D, 0x5D, 0x5E, 0x7D]) busy) =
      some { busy with upend := false, rsps := [⟨.ok, .none, [0x7D, 0x7E, 0x7D, 0x5E, 0x7D]⟩] } := by decide

/-! ## FRX (96 section 2.4) -/

/-- T1, operation 3: the escaped sync byte is the type. -/
theorem test_frxByte_T1_escaped_type :
    after (exec (.frxByte 0x5E) (withFrx ⟨.readType, true, 0x00, 0x00, [], 0x0000, 0x0000⟩)) =
      some { withFrx ⟨.readLen, false, 0x7E, 0x00, [], 0x0000, 0x9F59⟩ with rsps := [⟨.ok, .none, []⟩] } := by decide +kernel
/-- T13, operation 8: the high CRC byte arrives escaped and the message is emitted. -/
theorem test_frxByte_T13_message :
    after (exec (.frxByte 0x5D) (withFrx ⟨.readCrcHi, true, 0x3F, 0x01, [0xB0], 0x7E00, 0x7D7E⟩)) =
      some { withFrx .reset with rsps := [⟨.ok, .msg 0x3F [0xB0], []⟩] } := by decide +kernel
/-- T11, operation 5. -/
theorem test_frxEos :
    after (exec .frxEos (withFrx ⟨.readPayload, false, 0x14, 0x02, [0x05], 0x0000, 0xA964⟩)) =
      some { State.reset with rsps := [⟨.endOfStream, .none, []⟩] } := by decide
/-- T10, operation 4. -/
theorem test_frxTmo :
    after (exec .frxTmo (withFrx ⟨.readPayload, false, 0xFF, 0x01, [], 0x0000, 0x13DE⟩)) =
      some { State.reset with rsps := [⟨.timeout, .none, []⟩] } := by decide
/-- T14, operation 4: only FRX is cleared. -/
theorem test_frxClr : after (exec .frxClr busy) = some { busy with frx := .reset, rsps := [⟨.ok, .none, []⟩] } := by decide

/-! ## FTX (95 part 1 S8; 44_frame_transmitter.md R131) -/

theorem test_ftxSend_S8 :
    after (exec (.ftxSend 0xFF [0xFE]) busy) =
      some { busy with rsps := [⟨.ok, .none, [0x7E, 0xFF, 0x01, 0xFE, 0x83, 0xF2]⟩] } := by decide +kernel
theorem test_ftxSend_too_large :
    after (exec (.ftxSend 0x00 (List.replicate 256 0)) busy) = some { busy with rsps := [⟨.payloadTooLarge, .none, []⟩] } := by
  decide +kernel

/-! ## ACC (96 section 2.5) -/

theorem test_pinClr : after (exec .pinClr busy) = some { busy with pinacc := 0xFFFFFFFF, rsps := [⟨.ok, .none, []⟩] } := by
  decide
theorem test_pinDig_ninth_digit_pushes_the_first_out :
    after (exec (.pinDig 9) { busy with pinacc := 0x12345678 }) =
      some { busy with pinacc := 0x23456789, rsps := [⟨.ok, .none, []⟩] } := by decide
theorem test_pinDig_refuses_a_character : after (exec (.pinDig 0x31) busy) = some { busy with rsps := [⟨.pinDigit, .none, []⟩] } := by
  decide
theorem test_pinRd : after (exec .pinRd busy) = some { busy with rsps := [⟨.ok, .u32 0xFFFFFF42, []⟩] } := by decide
theorem test_pinPack :
    after (exec (.pinPack [1, 2, 3, 4]) busy) =
      some { busy with pinacc := 0xFFFF1234, rsps := [⟨.ok, .u32 0xFFFF1234, []⟩] } := by decide
theorem test_pinPack_checks_every_digit_first :
    after (exec (.pinPack [1, 2, 15]) busy) = some { busy with rsps := [⟨.pinDigit, .none, []⟩] } := by decide
theorem test_pinUnpk :
    after (exec (.pinUnpk 0xF9999999) busy) = some { busy with rsps := [⟨.ok, .digits [9, 9, 9, 9, 9, 9, 9], []⟩] } := by decide
theorem test_pinUnpk_fill_inside : answered (exec (.pinUnpk 0xFFFFF12F) busy) = some ⟨.pinFormat, .none, []⟩ := by decide
theorem test_keyXor :
    after (exec (.keyXor 0x00ABCDEF 0xFFFF1234) busy) = some { busy with rsps := [⟨.ok, .u32 0xFF54DFDB, []⟩] } := by decide
theorem test_recEnc_pin_and_card :
    after (exec (.recEnc 0x3B 0xFFFF1234 0x00ABCDEF 0x00000000) busy) =
      some { busy with rsps := [⟨.ok, .none, [0xDB, 0xDF, 0x54, 0xFF, 0x33]⟩] } := by decide
theorem test_recEnc_nothing_given : answered (exec (.recEnc 0x18 0 0 0) busy) = some ⟨.invalidArgument, .none, []⟩ := by decide
theorem test_recDec_card_hint :
    after (exec (.recDec ⟨0xDB, 0xDF, 0x54, 0xFF, 0x33⟩ 2 0x00ABCDEF) busy) =
      some { busy with
        rsps := [⟨.ok, .record ⟨.cardAndPin, false, 0x3, 0xFF54DFDB, some [1, 2, 3, 4], none⟩, []⟩] } := by decide
/-- S10: the invalid flag forces the type `None`. -/
theorem test_recDec_invalid :
    answered (exec (.recDec ⟨0xFF, 0xFF, 0xFF, 0xFF, 0x07⟩ 2 0) busy) =
      some ⟨.ok, .record ⟨.none, true, 0x0, 0xFFFFFFFF, none, none⟩, []⟩ := by decide

/-! ## Written forms and pseudo-operations (30_encoding.md R71, R72) -/

theorem test_asm :
    asm (.ftxSend 0x14 [0x05, 0x00]) = "FTX.SEND 0x14, [05 00]" ∧ asm (.pinUnpk 0xFFFF1234) = "PIN.UNPK 0xFFFF1234" ∧
    asm .crcClr = "CRC.CLR" := by decide +kernel
theorem test_pinStr :
    pinStr ['1', '2'] = some (.pinPack [1, 2]) ∧ pinStr ['1', 'A'] = none ∧ crcStr ['A'] = some (.crcBlk [0x41]) ∧
    frxFeed [0x7E, 0x00] = [.frxByte 0x7E, .frxByte 0x00] := by decide +kernel

/-! ## Witnesses: for each statement with hypotheses, a state and operands that meet all of them together; one for each
clause where it has several -/

/-- `[x, x, …]`, a payload of the largest size. -/
def payload255 : List Byte := List.replicate 255 0x7E

theorem payload255_length : payload255.length ≤ 255 := by unfold payload255; rw [List.length_replicate]

theorem crcBlk_wellFormed {data : List Byte} (h : data.length ≤ maxBlock) : (Instr.crcBlk data).WellFormed :=
  decide_eq_true h

/-- A block of the largest length. -/
def longest : List Byte := List.replicate 65535 0x00

theorem longest_length : longest.length = 65535 := by unfold longest; exact List.length_replicate

theorem witness_DecodeInvertsEncode :
    Instr.WellFormed (.ftxSend 0x14 [0x05, 0x00]) ∧ Instr.WellFormed (.crcBlk longest) := by
  refine ⟨by decide, ?_⟩
  exact crcBlk_wellFormed (by rw [longest_length]; decide)

theorem witness_EncodeInvertsDecode : decode [0x40, 0xFF, 0x01, 0x00, 0xFE] = .ok (.ftxSend 0xFF [0xFE]) := rfl

theorem witness_IllegalPacketIsRefused :
    (waiting [[], [0x02]]).cmds = [] :: [[0x02]] ∧ requiredLength [] ≠ some 0 ∧
    (waiting [[0x03, 0x01, 0x00]]).cmds = [0x03, 0x01, 0x00] :: [] ∧
    requiredLength [0x03, 0x01, 0x00] ≠ some 3 := by decide

theorem witness_StepRunsTheDecodedOperation :
    (waiting [[0x31, 0x09]]).cmds = [0x31, 0x09] :: [] ∧ decode [0x31, 0x09] = .ok (.pinDig 9) ∧
    Instr.WellFormed (.pinDig 9) := by decide

theorem witness_IdleBlockHoldsItsRegisters : busy.cmds = [] := rfl

theorem witness_OperationsRunInIssueOrder :
    ∀ i ∈ [Instr.crcUpd 0x31, .crcRd, .escDecb [0x7D, 0x5E], .ftxSend 0x00 []], i.WellFormed := by decide

theorem witness_EveryPacketGetsOneResult : 2 ≤ (waiting [[0x02], [0xFF]]).cmds.length := by decide

theorem witness_StatusesAreThoseOfTheOperation :
    exec (.pinDig 10) busy = .next (busy.deliver (raised .pinDigit)) ∧
    (busy.deliver (raised .pinDigit)).rsps = busy.rsps ++ [raised .pinDigit] := ⟨rfl, rfl⟩

/-- The state FRX.EOS in a packet leaves, and the one a refused PIN digit leaves. -/
theorem witness_FaultLeavesStateByItsClass :
    (step { busy with cmds := [[0x31, 0x0A]] } = .next (busy.deliver (raised .pinDigit)) ∧
      (busy.deliver (raised .pinDigit)).rsps = busy.rsps ++ [raised .pinDigit] ∧
      (raised .pinDigit).status ∈
        [Status.illegalOp, .reservedField, .payloadTooLarge, .invalidArgument, .pinDigit, .pinFormat]) ∧
    (step { busy with cmds := [[0x21]] } = .next (State.deliver { busy with frx := idleFrx } (raised .endOfStream)) ∧
      (State.deliver { busy with frx := idleFrx } (raised .endOfStream)).rsps = busy.rsps ++ [raised .endOfStream] ∧
      (raised .endOfStream).status ∈ [Status.checksumError, .endOfStream, .timeout]) :=
  ⟨⟨rfl, rfl, by decide⟩, ⟨rfl, rfl, by decide⟩⟩

theorem witness_OperationWritesOnlyItsRegisters :
    exec .escFlush busy = .next (State.deliver { busy with upend := false } (okOut [0x7D])) ∧
    writesCrc .escFlush = false ∧ writesFrx .escFlush = false ∧ writesPinacc .escFlush = false ∧
    exec .crcClr busy = .next (State.deliver { busy with crc := 0x0000 } okNone) ∧ writesUpend .crcClr = false :=
  ⟨rfl, rfl, rfl, rfl, rfl, rfl⟩

/-- Two states that differ in every register CRC.RD does not read. -/
theorem witness_ResultDependsOnlyOnItsRegisters :
    (readsCrc .crcRd = true → State.reset.crc = { busy with crc := 0x0000 }.crc) ∧ readsUpend .crcRd = false ∧
    readsFrx .crcRd = false ∧ readsPinacc .crcRd = false ∧ State.reset.cfg = { busy with crc := 0x0000 }.cfg ∧
    exec .crcRd State.reset = .next (State.reset.deliver (okRes (.u16 0x0000))) ∧
    (State.reset.deliver (okRes (.u16 0x0000))).rsps = State.reset.rsps ++ [okRes (.u16 0x0000)] ∧
    exec .crcRd { busy with crc := 0x0000 } =
      .next (State.deliver { busy with crc := 0x0000 } (okRes (.u16 0x0000))) ∧
    (State.deliver { busy with crc := 0x0000 } (okRes (.u16 0x0000))).rsps = busy.rsps ++ [okRes (.u16 0x0000)] :=
  ⟨fun _ => rfl, rfl, rfl, rfl, rfl, rfl, rfl, rfl, rfl⟩

/-- A frame in progress satisfies the invariant, with a packet waiting that takes a step; and so does one in
`READ_CRC_HI`. -/
theorem witness_EveryStepKeepsTheInvariant :
    State.Inv { busy with cmds := [[0x20, 0x00]] } ∧
    step { busy with cmds := [[0x20, 0x00]] } = .next
      (State.deliver { busy with frx := ⟨.readCrcLo, false, 0x14, 0x00, [], 0x0000, 0xCFB7⟩ } okNone) ∧
    State.Inv (withFrx ⟨.readCrcHi, false, 0x7F, 0x00, [], 0x6700, 0x1867⟩) := by
  refine ⟨by decide +kernel, next_of_after (by decide +kernel), by decide +kernel⟩

theorem witness_SingleByteChangeChangesTheCrc : (0x00 : Byte) ≠ 0x01 := by decide

theorem witness_EscEncEmitsTheEscapedByte :
    (0x7C : Byte) ≠ 0x7D ∧ (0x7C : Byte) ≠ 0x7E ∧ (0x7F : Byte) ≠ 0x7D ∧ (0x7F : Byte) ≠ 0x7E := by decide

/-- A held marker and no held marker; bytes beside the special ones. -/
theorem witness_StreamingUnescapeStepByStep :
    busy.upend = true ∧ State.reset.upend = false ∧
    (0x5F : Byte) ≠ 0x5E ∧ (0x5F : Byte) ≠ 0x5D ∧ (0x5F : Byte) ≠ 0x7D ∧ (0x7E : Byte) ≠ 0x7D := by decide

theorem witness_SyncStartsAFrameAndTheRestIsDropped : (0x7D : Byte) ≠ 0x7E ∧ State.reset.frx.st = .waitSync := by decide

theorem witness_MarkerSetsTheEscapeFlag :
    (busy.frx.st ≠ .waitSync ∧ busy.frx.escf = false) ∧
    ((markFrx ⟨.readType, true, 0x00, 0x00, [], 0x0000, 0x0000⟩).frx.st ≠ .waitSync ∧
      (markFrx ⟨.readType, true, 0x00, 0x00, [], 0x0000, 0x0000⟩).cfg.escEsc = .mark) := by decide

/-- Data bytes in each way a byte is taken, in `READ_TYPE` and `READ_LEN`, with length 0 and 1. -/
theorem witness_TypeAndLengthAreTaken :
    (TakenAsData (withFrx ⟨.readType, true, 0x00, 0x00, [], 0x0000, 0x0000⟩) 0x7D 0x5D ∧
      (withFrx ⟨.readType, true, 0x00, 0x00, [], 0x0000, 0x0000⟩).frx.st = .readType) ∧
    (TakenAsData (markFrx ⟨.readType, true, 0x00, 0x00, [], 0x0000, 0x0000⟩) 0x5E 0x7E ∧
      (markFrx ⟨.readType, true, 0x00, 0x00, [], 0x0000, 0x0000⟩).frx.st = .readType) ∧
    (TakenAsData busy 0x00 0x00 ∧ busy.frx.st = .readLen ∧ (0x00 : Byte) = 0x00) ∧
    (TakenAsData busy 0x01 0x01 ∧ busy.frx.st = .readLen ∧ (0x01 : Byte) ≠ 0x00) := by
  unfold TakenAsData; decide

/-- T2 before operation 11: four of five payload bytes have come. -/
def oneToCome : State := withFrx ⟨.readPayload, false, 0x00, 0x05, [0x02, 0x01, 0x04, 0x10], 0x0000, 0x27FA⟩

/-- T2 before operation 10: three of five payload bytes have come. -/
def twoToCome : State := withFrx ⟨.readPayload, false, 0x00, 0x05, [0x02, 0x01, 0x04], 0x0000, 0xA190⟩

/-- The last payload byte and one before it. -/
theorem witness_PayloadBytesAreAppended :
    (TakenAsData oneToCome 0x00 0x00 ∧ oneToCome.frx.st = .readPayload ∧
      oneToCome.frx.pay.length + 1 = oneToCome.frx.len.toNat) ∧
    (TakenAsData twoToCome 0x10 0x10 ∧ twoToCome.frx.st = .readPayload ∧
      twoToCome.frx.pay.length + 1 ≠ twoToCome.frx.len.toNat) := by
  unfold TakenAsData; decide

/-- T5 before operation 7: the low CRC byte is next. -/
def crcLoNext : State := withFrx ⟨.readCrcLo, false, 0x7F, 0x00, [], 0x0000, 0x1867⟩

/-- T5 before operation 8: the high CRC byte is next. -/
def crcHiNext : State := withFrx ⟨.readCrcHi, false, 0x7F, 0x00, [], 0x6700, 0x1867⟩

/-- T5, operations 7 and 8, and the last with another byte. -/
theorem witness_CrcBytesEmitOrReject :
    (TakenAsData crcLoNext 0x67 0x67 ∧ crcLoNext.frx.st = .readCrcLo) ∧
    (TakenAsData crcHiNext 0x18 0x18 ∧ crcHiNext.frx.st = .readCrcHi ∧
      (0x18 : Byte).toNat * 256 + crcHiNext.frx.rcrc.toNat / 256 = crcHiNext.frx.xcrc.toNat) ∧
    (TakenAsData crcHiNext 0x19 0x19 ∧ crcHiNext.frx.st = .readCrcHi ∧
      (0x19 : Byte).toNat * 256 + crcHiNext.frx.rcrc.toNat / 256 ≠ crcHiNext.frx.xcrc.toNat) := by
  unfold TakenAsData; decide

/-- T5, operation 8: the state satisfies the invariant and the byte emits a message. -/
theorem witness_EmittedMessageHasItsCrc :
    crcHiNext.frx.Inv ∧
    exec (.frxByte 0x18) crcHiNext =
      .next ((withFrx idleFrx).deliver (okRes (.msg 0x7F []))) ∧
    ((withFrx idleFrx).deliver (okRes (.msg 0x7F []))).rsps =
      crcHiNext.rsps ++ [okRes (.msg 0x7F [])] :=
  ⟨by decide +kernel, next_of_after (by decide +kernel), rfl⟩

theorem witness_OutcomeOnlyOnTheHighCrcByte :
    exec (.frxByte 0x18) crcHiNext =
      .next ((withFrx idleFrx).deliver (okRes (.msg 0x7F []))) ∧
    ((withFrx idleFrx).deliver (okRes (.msg 0x7F []))).rsps =
      crcHiNext.rsps ++ [okRes (.msg 0x7F [])] ∧
    okRes (.msg 0x7F []) ≠ okNone :=
  ⟨next_of_after (by decide +kernel), rfl, by decide⟩

/-- The premise of FrameRoundTrip, FrameAfterNoiseIsReceived, FrameHasOneSyncByte, FtxSendIsCrcThenEscape and of the sizes of a
frame, at both ends. -/
theorem witness_FrameRoundTrip : ([] : List Byte).length ≤ 255 ∧ payload255.length ≤ 255 := ⟨by decide, payload255_length⟩

theorem witness_FrameAfterNoiseIsReceived : ([] : List Byte).length ≤ 255 ∧ payload255.length ≤ 255 := witness_FrameRoundTrip
theorem witness_FrameHasOneSyncByte : ([] : List Byte).length ≤ 255 ∧ payload255.length ≤ 255 := witness_FrameRoundTrip
theorem witness_FtxSendIsCrcThenEscape : ([] : List Byte).length ≤ 255 ∧ payload255.length ≤ 255 := witness_FrameRoundTrip
theorem witness_EscapeAndFrameSizes : ([] : List Byte).length ≤ 255 ∧ payload255.length ≤ 255 := witness_FrameRoundTrip

/-- 255 bytes are sent, 256 are refused. -/
theorem witness_FtxSendEmitsTheFrame :
    payload255.length ≤ 255 ∧ 255 < (List.replicate 256 (0x00 : Byte)).length := by
  refine ⟨payload255_length, ?_⟩
  rw [List.length_replicate]; decide

/-- A single bit away from the CRC `0xF283` of the S8 reply. -/
theorem witness_WrongCrcIsRejected :
    [(0xFE : Byte)].length ≤ 255 ∧ (0xF282 : Word16).toNat ≠ crc16Number (body 0xFF [0xFE]) := by decide +kernel

/-- S3, first two rows: the payload byte `FE` to `FD`, and the type `FF` to `FE`. -/
theorem witness_SingleByteDamageIsDetected :
    [(0xFE : Byte)].length ≤ 255 ∧ (0xF283 : Word16).toNat = crc16Number (body 0xFF [0xFE]) ∧
    ((0xFE : Byte) ≠ 0xFF) ∧
    ∃ before x y after, x ≠ y ∧ [(0xFE : Byte)] = before ++ x :: after ∧ [(0xFD : Byte)] = before ++ y :: after :=
  ⟨by decide, by decide +kernel, by decide, [], 0xFE, 0xFD, [], by decide, rfl, rfl⟩

/-- Two markers in the wire stream, but not beside each other, fed with no escape pending. -/
theorem witness_VariantsDifferOnlyOnTwoMarkers :
    (¬∃ before after, [0x7D, 0x5D, (0x7D : Byte)] = before ++ 0x7D :: 0x7D :: after) ∧ busy.frx.escf = false := by
  refine ⟨?_, rfl⟩
  rintro ⟨before, after, h⟩
  match before, h with
  | [], h => simp at h
  | [_], h => simp at h
  | [_, _], h => simp at h
  | _ :: _ :: _ :: _, h => simpa using congrArg List.length h

/-- The stream of markers alone, and a receiver of the other variant inside a frame. -/
theorem witness_FrameEndsWithinItsBound :
    (State.reset.cfg.escEsc = .data ∧ (List.replicate 518 (0x7D : Byte)).length = 518 ∧
      (0x7E : Byte) ∉ List.replicate 518 (0x7D : Byte)) ∧
    ((markFrx ⟨.readType, false, 0x00, 0x00, [], 0x0000, 0x0000⟩).cfg.escEsc = .mark ∧
      (markFrx ⟨.readType, false, 0x00, 0x00, [], 0x0000, 0x0000⟩).frx.st ≠ .waitSync) := by
  refine ⟨⟨rfl, List.length_replicate, fun h => ?_⟩, by decide⟩
  exact absurd (List.eq_of_mem_replicate h) (by decide)

/-- The largest digit and the smallest value that is none. -/
theorem witness_PinDigShiftsOneDigitIn : (0x09 : Byte).toNat ≤ 9 ∧ 9 < (0x0A : Byte).toNat := by decide

theorem witness_PinPackIsTheDigitSequence : AllDigits [] ∧ AllDigits [0, 9] ∧ ¬AllDigits [1, 10] := by
  unfold AllDigits; decide

/-- No digit, eight, and nine. -/
theorem witness_PackedPinLayout :
    (AllDigits [] ∧ ([] : List Byte).length ≤ 8) ∧
    (AllDigits [1, 2, 3, 4, 5, 6, 7, 8] ∧ [1, 2, 3, 4, 5, 6, 7, (8 : Byte)].length ≤ 8) ∧
    (AllDigits [1, 2, 3, 4, 5, 6, 7, 8, 9] ∧ 8 < [1, 2, 3, 4, 5, 6, 7, 8, (9 : Byte)].length) := by
  unfold AllDigits; decide

theorem packs_7 : PacksDigits 0xFFFFFFF7 [7] :=
  ⟨7, by decide, by decide, by decide, by decide⟩

theorem packs_99999999 : PacksDigits 0x99999999 [9, 9, 9, 9, 9, 9, 9, 9] :=
  ⟨0, by decide, by decide, by decide, by decide⟩

/-- Eight fill nibbles and no digit. -/
theorem packs_no_digit : ¬∃ ds, PacksDigits 0xFFFFFFFF ds := by
  rintro ⟨ds, k, hk, -, -, h⟩
  have h0 := (h 0 (by omega)).1
  interval_cases k <;> revert h0 <;> decide

/-- A fill nibble below a digit. -/
theorem packs_fill_inside : ¬∃ ds, PacksDigits 0x1F2F3F4F ds := by
  rintro ⟨ds, k, hk, -, h1, h⟩
  rcases Nat.eq_zero_or_pos k with rfl | hk0
  · have h0 := (h 1 (by omega)).1
    revert h0; decide
  · have h0 := h1 0 hk0
    revert h0; decide

/-- One digit, eight digits; no digit, and a fill nibble below a digit. -/
theorem witness_PinUnpkReadsExactlyCanonicalPins :
    PacksDigits 0xFFFFFFF7 [7] ∧ PacksDigits 0x99999999 [9, 9, 9, 9, 9, 9, 9, 9] ∧
    (¬∃ ds, PacksDigits 0xFFFFFFFF ds) ∧ ¬∃ ds, PacksDigits 0x1F2F3F4F ds :=
  ⟨packs_7, packs_99999999, packs_no_digit, packs_fill_inside⟩

theorem witness_CombinedKeyGivesCardAndPinBack :
    (AllDigits [7] ∧ 1 ≤ [(7 : Byte)].length ∧ [(7 : Byte)].length ≤ 8) ∧
    (AllDigits [1, 2, 3, 4, 5, 6, 7, 8] ∧ 1 ≤ [1, 2, 3, 4, 5, 6, 7, (8 : Byte)].length ∧
      [1, 2, 3, 4, 5, 6, 7, (8 : Byte)].length ≤ 8) := by
  unfold AllDigits; decide

/-- A flags byte for each clause, in the order of the clauses (96 section 2.5: `1F`, `3B`, `FA`, `59`, `18`, `10`). -/
theorem witness_RecEncByPrecedence :
    ((0x1F : Byte).getLsbD 2 = true) ∧
    ((0x3B : Byte).getLsbD 2 = false ∧ (0x3B : Byte).getLsbD 1 = true ∧ (0x3B : Byte).getLsbD 0 = true) ∧
    ((0xFA : Byte).getLsbD 2 = false ∧ (0xFA : Byte).getLsbD 1 = true ∧ (0xFA : Byte).getLsbD 0 = false) ∧
    ((0x59 : Byte).getLsbD 2 = false ∧ (0x59 : Byte).getLsbD 1 = false ∧ (0x59 : Byte).getLsbD 0 = true) ∧
    ((0x18 : Byte).getLsbD 2 = false ∧ (0x18 : Byte).getLsbD 1 = false ∧ (0x18 : Byte).getLsbD 0 = false ∧
      (0x18 : Byte).getLsbD 3 = true) ∧
    ((0x10 : Byte).getLsbD 2 = false ∧ (0x10 : Byte).getLsbD 1 = false ∧ (0x10 : Byte).getLsbD 0 = false ∧
      (0x10 : Byte).getLsbD 3 = false) := by decide

theorem witness_RecDecReservedAndInvalid :
    2 < (0x03 : Byte).toNat ∧ (0x02 : Byte).toNat ≤ 2 ∧ (0x07 : Byte).toNat / 4 % 2 = 1 := by decide

/-- A valid record of each type, with the hints and keys of each clause (96 section 2.5). -/
theorem witness_RecDecRecoversByTypeAndHint :
    State.reset.cfg.Wf ∧ (0 : Byte).toNat ≤ 2 ∧ (2 : Byte).toNat ≤ 2 ∧
    ((0x10 : Byte).toNat / 4 % 2 = 0 ∧ (accessCodeOf State.reset.cfg.accessCode .none).toNat = (0x10 : Byte).toNat % 4) ∧
    ((0xF2 : Byte).toNat / 4 % 2 = 0 ∧ (accessCodeOf State.reset.cfg.accessCode .card).toNat = (0xF2 : Byte).toNat % 4) ∧
    ((0x59 : Byte).toNat / 4 % 2 = 0 ∧ (accessCodeOf State.reset.cfg.accessCode .pin).toNat = (0x59 : Byte).toNat % 4) ∧
    PacksDigits (keyOf ⟨0xF7, 0xFF, 0xFF, 0xFF, 0x59⟩) [7] ∧
    (¬∃ ds, PacksDigits (keyOf ⟨0xFF, 0xFF, 0xFF, 0xFF, 0x59⟩) ds) ∧
    ((0x33 : Byte).toNat / 4 % 2 = 0 ∧
      (accessCodeOf State.reset.cfg.accessCode .cardAndPin).toNat = (0x33 : Byte).toNat % 4) ∧
    PacksDigits (keyOf ⟨0xF7, 0xFF, 0xFF, 0xFF, 0x33⟩ ^^^ 0) [7] ∧
    ¬∃ ds, PacksDigits (keyOf ⟨0xFF, 0xFF, 0xFF, 0xFF, 0x33⟩ ^^^ 0) ds :=
  ⟨by decide, by decide, by decide, by decide, by decide, by decide, packs_7, packs_no_digit, by decide, packs_7,
    packs_no_digit⟩

/-- REC.ENC of a PIN record, of a card record, of a combined record from its two parts and from a combined key, each with the
flags of its clause (96 section 2.5). -/
theorem witness_RecordRoundTrip :
    State.reset.cfg.Wf ∧
    (exec (.recEnc 0x59 0x99999999 0 0) State.reset =
        .next (State.reset.deliver (okOut (RecBytes.toList ⟨0x99, 0x99, 0x99, 0x99, 0x51⟩))) ∧
      (0x59 : Byte).getLsbD 2 = false ∧ (0x59 : Byte).getLsbD 0 = true ∧ (0x59 : Byte).getLsbD 1 = false ∧
      PacksDigits 0x99999999 [9, 9, 9, 9, 9, 9, 9, 9]) ∧
    (exec (.recEnc 0xFA 0 0x00ABCDEF 0) State.reset =
        .next (State.reset.deliver (okOut (RecBytes.toList ⟨0xEF, 0xCD, 0xAB, 0x00, 0xF2⟩))) ∧
      (0xFA : Byte).getLsbD 2 = false ∧ (0xFA : Byte).getLsbD 0 = false ∧ (0xFA : Byte).getLsbD 1 = true) ∧
    (exec (.recEnc 0x3B 0xFFFFFFF7 0 0) State.reset =
        .next (State.reset.deliver (okOut (RecBytes.toList ⟨0xF7, 0xFF, 0xFF, 0xFF, 0x33⟩))) ∧
      (0x3B : Byte).getLsbD 2 = false ∧ (0x3B : Byte).getLsbD 0 = true ∧ (0x3B : Byte).getLsbD 1 = true ∧
      PacksDigits 0xFFFFFFF7 [7]) ∧
    (exec (.recEnc 0x14 0 0 0xDEADBEEF) State.reset =
        .next (State.reset.deliver (okOut (RecBytes.toList ⟨0xEF, 0xBE, 0xAD, 0xDE, 0x13⟩))) ∧
      (0x14 : Byte).getLsbD 2 = true) ∧
    exec (.recDec ⟨0xEF, 0xBE, 0xAD, 0xDE, 0x13⟩ 0 0) State.reset = .next (State.reset.deliver (okRes (.record
      ⟨.cardAndPin, false, 0x1, 0xDEADBEEF, none, none⟩))) :=
  ⟨by decide, ⟨next_of_after (by decide), by decide, by decide, by decide, packs_99999999⟩,
    ⟨next_of_after (by decide), by decide, by decide, by decide⟩,
    ⟨next_of_after (by decide), by decide, by decide, by decide, packs_7⟩,
    ⟨next_of_after (by decide), by decide⟩, next_of_after (by decide)⟩

end Sys2Proof.Tests
end

section
/-! PROOFS. The rules of one step and of a run, and the statement about the whole block. -/

namespace Sys2Proof.Machine

/-- Taking the packet at the head of the port. -/
theorem fetchPacket_of_cmds {s : State} {p : Packet} {rest : List Packet} (hc : s.cmds = p :: rest) :
    fetchPacket s = some (p, { s with cmds := rest }) :=
  fetchPacket_eq_some.mpr ⟨rest, hc, rfl⟩

/-- A packet the decoder accepts runs its operation on the state without that packet. -/
theorem step_of_decode_ok {s : State} {p : Packet} {rest : List Packet} {i : Instr}
    (hc : s.cmds = p :: rest) (hd : decode p = .ok i) : step s = exec i { s with cmds := rest } := by
  simp only [step, fetchPacket_of_cmds hc, hd]

/-- A packet the decoder rejects is answered with `IllegalOp`, and only the port changes (60_exceptions.md R203). -/
theorem step_of_decode_error {s : State} {p : Packet} {rest : List Packet} {e : Reject}
    (hc : s.cmds = p :: rest) (hd : decode p = .error e) :
    step s = .next (State.deliver { s with cmds := rest } (raise .illegalOp)) := by
  simp only [step, fetchPacket_of_cmds hc, hd, refusePacket_eq]

/-- The single-step case of R200 and R210: whatever the bytes of the waiting packet, the step reaches a next state, takes that
packet alone and delivers one result. -/
theorem step_answers_packet {s : State} {p : Packet} {rest : List Packet} (hc : s.cmds = p :: rest) :
    ∃ t r, step s = .next t ∧ t.rsps = s.rsps ++ [r] ∧ t.cmds = rest ∧ t.cfg = s.cfg := by
  cases hd : decode p with
  | ok i =>
    obtain ⟨_, _, _, _, r, hexec⟩ := exec_answers i { s with cmds := rest }
    exact ⟨_, r, (step_of_decode_ok hc hd).trans hexec, rfl, rfl, rfl⟩
  | error e => exact ⟨_, _, step_of_decode_error hc hd, rfl, rfl, rfl⟩

@[simp] theorem run_zero (s : State) : Host.Core.run Sys2Proof.core 0 s = .next s := rfl

/-- A run whose first step reaches `t` goes on from `t`. -/
theorem run_succ_of_step {s t : State} (h : step s = .next t) (k : Nat) :
    Host.Core.run Sys2Proof.core (k + 1) s = Host.Core.run Sys2Proof.core k t := by
  have hcore : Sys2Proof.core.step s = .next t := h
  simp only [Host.Core.run, hcore]

end Sys2Proof.Machine

namespace Sys2Proof.Proofs

open Sys2Proof.Machine

/-- Settles O9, by induction on the number of packets: the first step answers the packet at the head of the port, the rest of
the run answers the others. -/
theorem everyPacketGetsOneResult : Obligations.EveryPacketGetsOneResult := by
  unfold Obligations.EveryPacketGetsOneResult
  intro k
  induction k with
  | zero => exact fun s _ => ⟨s, [], run_zero s, by simp⟩
  | succ k ih =>
    intro s hk
    obtain ⟨p, rest, hc⟩ := List.exists_cons_of_length_pos (Nat.zero_lt_of_lt hk)
    obtain ⟨t, r, hstep, hrsps, hcmds, hcfg⟩ := step_answers_packet hc
    have hkt : k ≤ t.cmds.length := by
      rw [hc, List.length_cons] at hk
      rw [hcmds]; omega
    obtain ⟨u, rs, hrun, hursps, hlen, hucmds, hucfg⟩ := ih t hkt
    refine ⟨u, r :: rs, (run_succ_of_step hstep k).trans hrun, ?_, ?_, ?_, hucfg.trans hcfg⟩
    · rw [hursps, hrsps, List.append_assoc, List.singleton_append]
    · rw [List.length_cons, hlen]
    · rw [hucmds, hcmds, hc, List.drop_succ_cons]

end Sys2Proof.Proofs
end

section
/-! PROOFS. What one operation does, said once for all twenty-three: the registers it writes and the result it delivers. From
it, which registers an operation leaves and which its result depends on (10_state.md R20). -/

namespace Sys2Proof.Machine

open Sys2Proof.Claims

/-- The state with every register the operation writes already written, before its result is delivered. -/
def State.written (s : State) : Instr → State
  | .crcClr => { s with crc := crcInit }
  | .crcUpd b => { s with crc := crcByte s.crc b }
  | .crcBlk data => { s with crc := crc16 data }
  | .escDec b => { s with upend := (upendStep s.upend b).1 }
  | .escFlush | .escClr | .escDecb _ => { s with upend := false }
  | .frxByte b => { s with frx := (frxByte s.cfg.escEsc s.frx b).1 }
  | .frxEos | .frxTmo | .frxClr => { s with frx := Frx.reset }
  | .pinClr => { s with pinacc := pinInit }
  | .pinDig d => { s with pinacc := if isDigit d then pinShift s.pinacc d else s.pinacc }
  | .pinPack ds => { s with pinacc := if ds.all isDigit then packPin ds else s.pinacc }
  | .crcRd | .escEnc _ | .escEncb _ | .pinRd | .pinUnpk _ | .keyXor _ _ | .recEnc _ _ _ _ | .recDec _ _ _
  | .ftxSend _ _ => s

/-- The result the operation delivers. -/
def State.resultOf (s : State) : Instr → Result
  | .crcClr | .crcUpd _ | .escClr | .frxClr | .pinClr => okResult .none []
  | .crcRd => okResult (.u16 s.crc) []
  | .crcBlk data => okResult (.u16 (crc16 data)) []
  | .escEnc b => okResult .none (esc1 b)
  | .escDec b => okResult .none (upendStep s.upend b).2
  | .escFlush => okResult .none (upendFlush s.upend)
  | .escEncb data => okResult .none (escape data)
  | .escDecb data => okResult .none (unescape data)
  | .frxByte b => (frxByte s.cfg.escEsc s.frx b).2
  | .frxEos => raise .endOfStream
  | .frxTmo => raise .timeout
  | .pinDig d => if isDigit d then okResult .none [] else raise .pinDigit
  | .pinRd => okResult (.u32 s.pinacc) []
  | .pinPack ds => if ds.all isDigit then okResult (.u32 (packPin ds)) [] else raise .pinDigit
  | .pinUnpk w => unpackResult w
  | .keyXor a b => okResult (.u32 (a ^^^ b)) []
  | .recEnc flags ppin card ckey => encodeRecord s.cfg flags ppin card ckey
  | .recDec record hsel hint => decodeRecord s.cfg record hsel hint
  | .ftxSend type payload =>
    if payload.length > maxPayload then raise .payloadTooLarge else okResult .none (frame type payload)

/-- Every operation is its register writes followed by the delivery of its result. -/
theorem exec_eq_deliver (i : Instr) (s : State) : exec i s = .next ((s.written i).deliver (s.resultOf i)) := by
  cases i with
  | pinDig d =>
    simp only [exec, execPinDig, State.written, State.resultOf, State.answer_eq]
    split <;> rfl
  | pinPack ds =>
    simp only [exec, execPinPack, State.written, State.resultOf, State.answer_eq]
    split <;> rfl
  | ftxSend type payload =>
    simp only [exec, execFtxSend, State.written, State.resultOf, State.answer_eq]
    split <;> rfl
  | _ => rfl

/-- The one next state an operation can reach. -/
theorem eq_deliver_of_exec {i : Instr} {s t : State} (h : exec i s = .next t) :
    t = (s.written i).deliver (s.resultOf i) := by
  rw [exec_eq_deliver] at h
  exact (Host.Outcome.next.inj h).symm

/-! ### The registers an operation does not write (10_state.md R20, "written by") -/

theorem State.written_crc {i : Instr} (h : writesCrc i = false) (s : State) : (s.written i).crc = s.crc := by
  cases i with
  | crcClr | crcUpd _ | crcBlk _ => cases h
  | _ => rfl

theorem State.written_upend {i : Instr} (h : writesUpend i = false) (s : State) : (s.written i).upend = s.upend := by
  cases i with
  | escDec _ | escFlush | escClr | escDecb _ => cases h
  | _ => rfl

theorem State.written_frx {i : Instr} (h : writesFrx i = false) (s : State) : (s.written i).frx = s.frx := by
  cases i with
  | frxByte _ | frxEos | frxTmo | frxClr => cases h
  | _ => rfl

theorem State.written_pinacc {i : Instr} (h : writesPinacc i = false) (s : State) : (s.written i).pinacc = s.pinacc := by
  cases i with
  | pinClr | pinDig _ | pinPack _ => cases h
  | _ => rfl

@[simp] theorem State.written_rsps (i : Instr) (s : State) : (s.written i).rsps = s.rsps := by
  cases i <;> rfl

/-! ### The registers an operation reads (10_state.md R20, "read by") -/

/-- The result of an operation is a function of the parameters and of the registers it reads. -/
theorem State.resultOf_congr {i : Instr} {s s' : State}
    (hcrc : readsCrc i = true → s.crc = s'.crc) (hupend : readsUpend i = true → s.upend = s'.upend)
    (hfrx : readsFrx i = true → s.frx = s'.frx) (hpin : readsPinacc i = true → s.pinacc = s'.pinacc)
    (hcfg : s.cfg = s'.cfg) : s.resultOf i = s'.resultOf i := by
  cases i with
  | crcRd => simp only [State.resultOf, hcrc rfl]
  | escDec b => simp only [State.resultOf, hupend rfl]
  | escFlush => simp only [State.resultOf, hupend rfl]
  | frxByte b => simp only [State.resultOf, hfrx rfl, hcfg]
  | pinRd => simp only [State.resultOf, hpin rfl]
  | recEnc flags ppin card ckey => simp only [State.resultOf, hcfg]
  | recDec record hsel hint => simp only [State.resultOf, hcfg]
  | _ => rfl

/-- The result found last in the record of results is the one the operation delivers. -/
theorem eq_resultOf_of_exec {i : Instr} {s t : State} {r : Result} (h : exec i s = .next t)
    (hr : t.rsps = s.rsps ++ [r]) : r = s.resultOf i := by
  rw [eq_deliver_of_exec h, State.deliver_rsps, State.written_rsps] at hr
  exact (List.singleton_inj.mp (List.append_cancel_left hr)).symm

end Sys2Proof.Machine
end

section
/-! PROOFS. The FRX invariant (10_state.md R30): what it says in each state of the receiver, and that FRX.BYTE, every operation
and so every step keeps it. -/

namespace Sys2Proof.Machine

theorem Frx.inv_of_waitSync {f : Frx} (h : f.st = .waitSync) :
    f.Inv ↔ f.escf = false ∧ f.type = 0 ∧ f.len = 0 ∧ f.pay = [] ∧ f.rcrc = 0 ∧ f.xcrc = 0 := by
  simp +contextual [Frx.Inv, h]

theorem Frx.inv_of_readType {f : Frx} (h : f.st = .readType) :
    f.Inv ↔ f.type = 0 ∧ f.len = 0 ∧ f.pay = [] ∧ f.rcrc = 0 ∧ f.xcrc = 0 := by
  simp +contextual [Frx.Inv, h]

theorem Frx.inv_of_readLen {f : Frx} (h : f.st = .readLen) :
    f.Inv ↔ f.pay = [] ∧ f.xcrc = crc16 [f.type] ∧ f.rcrc = 0 := by
  simp [Frx.Inv, h, and_assoc]

theorem Frx.inv_of_readPayload {f : Frx} (h : f.st = .readPayload) :
    f.Inv ↔ f.pay.length < f.len.toNat ∧ f.xcrc = crc16 ([f.type, f.len] ++ f.pay) ∧ f.rcrc = 0 := by
  simpa [Frx.Inv, h, and_assoc] using fun hlt _ _ => Nat.one_le_of_lt hlt

theorem Frx.inv_of_readCrcLo {f : Frx} (h : f.st = .readCrcLo) :
    f.Inv ↔ f.pay.length = f.len.toNat ∧ f.xcrc = crc16 ([f.type, f.len] ++ f.pay) ∧ f.rcrc = 0 := by
  simp [Frx.Inv, h, and_assoc]

theorem Frx.inv_of_readCrcHi {f : Frx} (h : f.st = .readCrcHi) :
    f.Inv ↔ f.pay.length = f.len.toNat ∧ f.xcrc = crc16 ([f.type, f.len] ++ f.pay) ∧
      f.rcrc.extractLsb' 0 8 = 0 := by
  simp [Frx.Inv, h, and_assoc]

theorem Frx.inv_reset : Frx.reset.Inv := (Frx.inv_of_waitSync rfl).mpr ⟨rfl, rfl, rfl, rfl, rfl, rfl⟩

theorem Frx.inv_start (f : Frx) : f.start.Inv := (Frx.inv_of_readType rfl).mpr ⟨rfl, rfl, rfl, rfl, rfl⟩

/-- Outside `WAIT_SYNC` the invariant says nothing of `ESCF`. -/
theorem Frx.Inv.withEscf {f : Frx} (hf : f.Inv) (hst : f.st ≠ .waitSync) (escf : Bool) :
    ({ f with escf := escf } : Frx).Inv :=
  ⟨fun h => absurd h hst, hf.2⟩

/-- The first CRC byte stands alone in the high half of `RCRC` (10_state.md R28). -/
theorem rcrcShift_zero_low (d : Byte) : (rcrcShift 0 d).extractLsb' 0 8 = 0 := by
  ext i hi
  simp [rcrcShift, hi]

/-- Part 4 of FRX.BYTE keeps the FRX invariant, field by field of the frame (43_frame_receiver.md R110 to R114). -/
theorem frxData_keeps_inv {f : Frx} (d : Byte) (hf : f.Inv) : (frxData f d).1.Inv := by
  cases hst : f.st with
  | waitSync => simpa only [frxData, hst] using hf
  | readType =>
    obtain ⟨-, -, hpay, hrcrc, hxcrc⟩ := (Frx.inv_of_readType hst).mp hf
    simp only [frxData, hst]
    exact (Frx.inv_of_readLen rfl).mpr ⟨hpay, by rw [hxcrc]; rfl, hrcrc⟩
  | readLen =>
    obtain ⟨hpay, hxcrc, hrcrc⟩ := (Frx.inv_of_readLen hst).mp hf
    have hcrc : crcByte f.xcrc d = crc16 ([f.type, d] ++ f.pay) := by rw [hpay, hxcrc]; rfl
    simp only [frxData, hst]
    by_cases hd : d = 0
    · rw [if_pos hd]
      exact (Frx.inv_of_readCrcLo rfl).mpr ⟨by simp [hpay, hd], hcrc, hrcrc⟩
    · rw [if_neg hd]
      have hpos : 0 < d.toNat := Nat.pos_of_ne_zero fun h => hd (BitVec.eq_of_toNat_eq h)
      exact (Frx.inv_of_readPayload rfl).mpr ⟨by simpa [hpay] using hpos, hcrc, hrcrc⟩
  | readPayload =>
    obtain ⟨hlt, hxcrc, hrcrc⟩ := (Frx.inv_of_readPayload hst).mp hf
    have hcrc : crcByte f.xcrc d = crc16 ([f.type, f.len] ++ (f.pay ++ [d])) := by
      rw [hxcrc, ← crc16_concat, List.append_assoc]
    have hlen : (f.pay ++ [d]).length = f.pay.length + 1 := List.length_append
    simp only [frxData, hst]
    by_cases hend : (f.pay ++ [d]).length = f.len.toNat
    · rw [if_pos hend]
      exact (Frx.inv_of_readCrcLo rfl).mpr ⟨hend, hcrc, hrcrc⟩
    · rw [if_neg hend]
      exact (Frx.inv_of_readPayload rfl).mpr ⟨by dsimp only; omega, hcrc, hrcrc⟩
  | readCrcLo =>
    obtain ⟨hlen, hxcrc, hrcrc⟩ := (Frx.inv_of_readCrcLo hst).mp hf
    simp only [frxData, hst]
    exact (Frx.inv_of_readCrcHi rfl).mpr ⟨hlen, hxcrc, by rw [hrcrc]; exact rcrcShift_zero_low d⟩
  | readCrcHi =>
    rw [(frxData_readCrcHi hst).1]
    exact Frx.inv_reset

/-- FRX.BYTE keeps the FRX invariant, whatever the byte and the variant. -/
theorem frxByte_keeps_inv (variant : EscEsc) {f : Frx} (b : Byte) (hf : f.Inv) : (frxByte variant f b).1.Inv := by
  rcases frxByte_cases variant f b with ⟨-, h⟩ | ⟨-, -, h⟩ | ⟨-, hst, -, h⟩ | ⟨d, -, hst, -, h⟩ <;> rw [h]
  · exact f.inv_start
  · exact hf
  · exact hf.withEscf hst true
  · exact frxData_keeps_inv d (hf.withEscf hst false)

/-- Every operation keeps the FRX invariant: only the four FRX operations write FRX, three of them its reset value. -/
theorem State.written_frx_inv (i : Instr) {s : State} (hs : s.frx.Inv) : (s.written i).frx.Inv := by
  cases i with
  | frxByte b => exact frxByte_keeps_inv s.cfg.escEsc b hs
  | frxEos | frxTmo | frxClr => exact Frx.inv_reset
  | _ => exact hs

/-- Every operation keeps the invariants of the block. -/
theorem exec_keeps_inv {i : Instr} {s t : State} (hs : s.Inv) (h : exec i s = .next t) : t.Inv := by
  obtain ⟨hfrx, hcfg⟩ := hs
  refine ⟨?_, (exec_next h).1.symm ▸ hcfg⟩
  rw [eq_deliver_of_exec h]
  exact State.written_frx_inv i hfrx

end Sys2Proof.Machine
end

section
/-! PROOFS. The CRC as polynomial arithmetic over GF(2): a value is a polynomial, one turn of the loop multiplies by `x` modulo
the generator (41_crc.md R80, log 8; 00_scope.md R7). -/

namespace Sys2Proof.Machine

open Polynomial Sys2Proof.Claims

/-! ### The polynomial of a value -/

/-- Addition over GF(2) is xor. -/
theorem bitsPoly_xor {w : Nat} (a b : BitVec w) : bitsPoly (a ^^^ b) = bitsPoly a + bitsPoly b := by
  unfold bitsPoly
  rw [← Finset.sum_add_distrib]
  refine Finset.sum_congr rfl fun i _ => ?_
  rw [BitVec.getLsbD_xor]
  cases a.getLsbD i <;> cases b.getLsbD i <;> simp [CharTwo.add_self_eq_zero]

theorem bitsPoly_degree_lt {w : Nat} (v : BitVec w) : (bitsPoly v).degree < w := by
  rw [← mem_degreeLT]
  refine Submodule.sum_mem _ fun i hi => mem_degreeLT.mpr ?_
  have hi : i < w := Finset.mem_range.mp hi
  split
  · rw [degree_X_pow]; exact_mod_cast hi
  · rw [degree_zero]; exact WithBot.bot_lt_coe w

/-- A left shift by one multiplies by `x`, with the bit shifted out put back. -/
theorem bitsPoly_mul_X {w : Nat} (v : BitVec (w + 1)) :
    bitsPoly v * X = bitsPoly (v <<< 1) + if v.getLsbD w then X ^ (w + 1) else 0 := by
  have hlow : (if (v <<< 1).getLsbD 0 then (X : (ZMod 2)[X]) ^ 0 else 0) = 0 := by simp
  have hshift : bitsPoly (v <<< 1) = ∑ i ∈ Finset.range w, if v.getLsbD i then X ^ (i + 1) else 0 := by
    unfold bitsPoly
    rw [Finset.sum_range_succ', hlow, add_zero]
    refine Finset.sum_congr rfl fun i hi => ?_
    rw [BitVec.getLsbD_shiftLeft]
    simp [Finset.mem_range.mp hi]
  rw [hshift]
  unfold bitsPoly
  rw [Finset.sum_mul, Finset.sum_range_succ]
  simp [ite_mul, pow_succ]

/-- A byte moved to the top of the accumulator is its polynomial times `x^8`. -/
theorem bitsPoly_byte_high (b : Byte) : bitsPoly (b.zeroExtend 16 <<< 8) = bitsPoly b * X ^ 8 := by
  unfold bitsPoly
  have hlow : ∀ i ∈ Finset.range 8,
      (if (b.zeroExtend 16 <<< 8).getLsbD i then (X : (ZMod 2)[X]) ^ i else 0) = 0 := fun i hi => by
    simp [Finset.mem_range.mp hi]
  rw [Finset.sum_range_add _ 8 8, Finset.sum_eq_zero hlow, zero_add, Finset.sum_mul]
  refine Finset.sum_congr rfl fun i hi => ?_
  have hbit : (b.zeroExtend 16 <<< 8).getLsbD (8 + i) = b.getLsbD i := by
    have hi8 : i < 8 := Finset.mem_range.mp hi
    simp [show 8 + i < 16 by omega]
  rw [hbit, ite_mul, zero_mul, ← pow_add, Nat.add_comm]

/-! ### Remainders modulo the generator -/

/-- The generator word holds every term of the generator but the highest (00_scope.md R7). -/
theorem generatorPoly_eq : generatorPoly = X ^ 16 + bitsPoly crcPoly := by
  have hword : bitsPoly crcPoly = 1 + X ^ 5 + X ^ 12 := by simp [bitsPoly, crcPoly, Finset.sum_range_succ]
  rw [hword, generatorPoly]
  ring

theorem generatorPoly_monic : generatorPoly.Monic := by
  rw [generatorPoly_eq]
  exact monic_X_pow_add (bitsPoly_degree_lt crcPoly)

theorem generatorPoly_degree : generatorPoly.degree = 16 := by
  rw [generatorPoly_eq, degree_add_eq_left_of_degree_lt, degree_X_pow]
  · rfl
  · rw [degree_X_pow]; exact bitsPoly_degree_lt crcPoly

/-- The class of a polynomial modulo the generator. -/
noncomputable abbrev genClass : (ZMod 2)[X] →+* AdjoinRoot generatorPoly := AdjoinRoot.mk generatorPoly

/-- Taking the generator off lowers `x^16` to the generator word. -/
theorem genClass_X_pow_16 : genClass (X ^ 16) = genClass (bitsPoly crcPoly) := by
  refine AdjoinRoot.mk_eq_mk.mpr ⟨1, ?_⟩
  rw [mul_one, generatorPoly_eq, CharTwo.sub_eq_add]

/-- One turn of the loop multiplies by `x`: the xor with the generator word stands for the `x^16` that left at the top. -/
theorem genClass_crcShift (c : Word16) : genClass (bitsPoly (crcShift c)) = genClass (bitsPoly c * X) := by
  rw [bitsPoly_mul_X]
  unfold crcShift
  cases c.getLsbD 15 with
  | false => simp
  | true =>
    simp only [if_true, bitsPoly_xor, map_add]
    rw [← genClass_X_pow_16]

theorem genClass_crcShifts (k : Nat) (c : Word16) :
    genClass (bitsPoly (crcShifts k c)) = genClass (bitsPoly c * X ^ k) := by
  induction k generalizing c with
  | zero => simp [crcShifts]
  | succ k ih => rw [crcShifts, ih, map_mul, genClass_crcShift, ← map_mul, mul_assoc, pow_succ']

/-- The byte enters at the top of the accumulator, eight turns below its place in the shifted message. -/
theorem genClass_crcByte (c : Word16) (b : Byte) :
    genClass (bitsPoly (crcByte c b)) = genClass (bitsPoly c * X ^ 8 + bitsPoly b * X ^ 16) := by
  rw [crcByte, genClass_crcShifts, bitsPoly_xor, bitsPoly_byte_high]
  congr 1
  ring

theorem messagePoly_concat (s : List Byte) (b : Byte) :
    messagePoly (s ++ [b]) = messagePoly s * X ^ 8 + bitsPoly b := by
  simp [messagePoly]

theorem bitsPoly_zero (w : Nat) : bitsPoly (0 : BitVec w) = 0 := by simp [bitsPoly]

theorem genClass_crc16 (data : List Byte) :
    genClass (bitsPoly (crc16 data)) = genClass (messagePoly data * X ^ 16) := by
  induction data using List.reverseRecOn with
  | nil =>
    have hcrc : bitsPoly (crc16 []) = 0 := bitsPoly_zero 16
    have hmessage : messagePoly [] = 0 := rfl
    rw [hcrc, hmessage, zero_mul]
  | append_singleton data b ih =>
    calc genClass (bitsPoly (crc16 (data ++ [b])))
        = genClass (bitsPoly (crc16 data)) * genClass (X ^ 8) + genClass (bitsPoly b * X ^ 16) := by
          rw [crc16_concat, genClass_crcByte, map_add, map_mul]
      _ = genClass (messagePoly (data ++ [b]) * X ^ 16) := by
          rw [ih, ← map_mul, ← map_add, messagePoly_concat]
          congr 1
          ring

/-- The CRC is a value below the generator in the class of the shifted message, so it is the remainder. -/
theorem bitsPoly_crc16 (data : List Byte) :
    bitsPoly (crc16 data) = (messagePoly data * X ^ 16) %ₘ generatorPoly := by
  have hdvd := AdjoinRoot.mk_eq_mk.mp (genClass_crc16 data)
  have hdeg : (bitsPoly (crc16 data)).degree < generatorPoly.degree := by
    rw [generatorPoly_degree]; exact bitsPoly_degree_lt _
  calc bitsPoly (crc16 data)
      = bitsPoly (crc16 data) %ₘ generatorPoly := ((modByMonic_eq_self_iff generatorPoly_monic).mpr hdeg).symm
    _ = (messagePoly data * X ^ 16) %ₘ generatorPoly := modByMonic_eq_of_dvd_sub generatorPoly_monic hdvd

end Sys2Proof.Machine
end

section
/-! PROOFS. The statements about the state (10_state.md) and the CRC's polynomial. -/

namespace Sys2Proof.Proofs

open Sys2Proof.Machine

/-- Settles O17, by the cases of a step: an idle step and a refused packet write no register, and every operation keeps the
invariants (`exec_keeps_inv`). -/
theorem everyStepKeepsTheInvariant : Obligations.EveryStepKeepsTheInvariant := by
  unfold Obligations.EveryStepKeepsTheInvariant
  intro s t hs hstep
  rcases step_cases hstep with ⟨-, rfl⟩ | ⟨p, rest, i, -, -, hexec⟩ | ⟨p, rest, e, -, -, rfl⟩
  · exact hs
  · have hrest : State.Inv { s with cmds := rest } := hs
    exact exec_keeps_inv hrest hexec
  · exact hs

/-- Settles O12: each register by its own frame lemma, the port and the parameters by `exec_next`. -/
theorem operationWritesOnlyItsRegisters : Obligations.OperationWritesOnlyItsRegisters := by
  unfold Obligations.OperationWritesOnlyItsRegisters
  intro i s t h
  obtain ⟨hcfg, hcmds, hrsps⟩ := exec_next h
  have ht := eq_deliver_of_exec h
  refine ⟨fun hw => ?_, fun hw => ?_, fun hw => ?_, fun hw => ?_, hcfg, hcmds, hrsps⟩ <;> rw [ht]
  · exact State.written_crc hw s
  · exact State.written_upend hw s
  · exact State.written_frx hw s
  · exact State.written_pinacc hw s

/-- Settles O13: both results are `State.resultOf`, which agrees on states that agree on the registers read. -/
theorem resultDependsOnlyOnItsRegisters : Obligations.ResultDependsOnlyOnItsRegisters := by
  unfold Obligations.ResultDependsOnlyOnItsRegisters
  intro i s s' t t' r r' hcrc hupend hfrx hpin hcfg h hr h' hr'
  rw [eq_resultOf_of_exec h hr, eq_resultOf_of_exec h' hr']
  exact State.resultOf_congr hcrc hupend hfrx hpin hcfg

/-- Settles O23: CRC.BLK leaves and reports `crc16` of the block, which `bitsPoly_crc16` says is the remainder. -/
theorem crcIsThePolynomialRemainder : Obligations.CrcIsThePolynomialRemainder := by
  unfold Obligations.CrcIsThePolynomialRemainder
  intro data s
  exact ⟨crc16 data, exec_eq_deliver (.crcBlk data) s, bitsPoly_crc16 data⟩

/-- Settles O5. The decoder accepts the packet, so the step is its operation, well-formed or not. -/
theorem stepRunsTheDecodedOperation : Obligations.StepRunsTheDecodedOperation := by
  unfold Obligations.StepRunsTheDecodedOperation
  intro s p rest i hc hd _
  exact step_of_decode_ok hc hd

/-- Settles O14: each register of `State.reset`, read off. -/
theorem resetGivesEveryRegisterItsValue : Obligations.ResetGivesEveryRegisterItsValue := by
  unfold Obligations.ResetGivesEveryRegisterItsValue
  exact ⟨rfl, rfl, rfl, rfl, rfl, rfl, rfl, rfl, rfl, rfl, rfl⟩

/-- Settles O16: FRX waits for a sync with every register cleared, and the default access codes differ. -/
theorem invariantHoldsAtReset : Obligations.InvariantHoldsAtReset := by
  unfold Obligations.InvariantHoldsAtReset
  have hcodes : State.reset.cfg.Wf := by decide
  exact ⟨Frx.inv_reset, hcodes⟩

end Sys2Proof.Proofs
end

section
/-! PROOFS. The packet of an operation decodes to it (30_encoding.md R64 to R70), and an operation neither reads nor writes
the command port; so packets run as the operations they encode, in issue order (20_memory.md R49). -/

namespace Sys2Proof

/-- Data behind its own length field is accepted. -/
theorem decodeData_lengthField (mk : List Byte → Instr) {data : List Byte} (h : data.length ≤ maxBlock) :
    decodeData mk (fromLe16 ((BitVec.ofNat 16 data.length).extractLsb' 0 8)
      ((BitVec.ofNat 16 data.length).extractLsb' 8 8)) data = .ok (mk data) :=
  decodeData_ok mk _ data (fromLe16_lengthField h).symm

/-! The words of formats W, X, R and D read back, low byte first (30_encoding.md R67). -/

theorem decodeW_le32 (mk : Word32 → Instr) (w : Word32) : decodeW mk (le32 w) = .ok (mk w) := by
  simp only [le32, decodeW, fromLe32_le32]

theorem decodeX_le32 (mk : Word32 → Word32 → Instr) (a b : Word32) :
    decodeX mk (le32 a ++ le32 b) = .ok (mk a b) := by
  simp only [le32, List.cons_append, List.nil_append, decodeX, fromLe32_le32]

theorem decodeR_le32 (mk : Byte → Word32 → Word32 → Word32 → Instr) (flags : Byte) (ppin card ckey : Word32) :
    decodeR mk (flags :: (le32 ppin ++ le32 card ++ le32 ckey)) = .ok (mk flags ppin card ckey) := by
  simp only [le32, List.cons_append, List.nil_append, decodeR, fromLe32_le32]

theorem decodeD_toList (mk : RecBytes → Byte → Word32 → Instr) (record : RecBytes) (hsel : Byte) (hint : Word32) :
    decodeD mk (record.toList ++ hsel :: le32 hint) = .ok (mk record hsel hint) := by
  simp only [RecBytes.toList, le32, List.cons_append, List.nil_append, decodeD, fromLe32_le32]

/-- The opcode of an encoded operation selects its own format, and the format's fields read back (30_encoding.md R68). -/
theorem decode_encode {i : Instr} (h : i.WellFormed) : decode (encode i) = .ok i := by
  cases i with
  | crcBlk data => exact decodeData_lengthField .crcBlk (of_decide_eq_true h)
  | escEncb data => exact decodeData_lengthField .escEncb (of_decide_eq_true h)
  | escDecb data => exact decodeData_lengthField .escDecb (of_decide_eq_true h)
  | pinPack data => exact decodeData_lengthField .pinPack (of_decide_eq_true h)
  | ftxSend type payload => exact decodeData_lengthField (.ftxSend type) (of_decide_eq_true h)
  | pinUnpk w => exact decodeW_le32 .pinUnpk w
  | keyXor a b => exact decodeX_le32 .keyXor a b
  | recEnc flags ppin card ckey => exact decodeR_le32 .recEnc flags ppin card ckey
  | recDec record hsel hint => exact decodeD_toList .recDec record hsel hint
  | _ => rfl

end Sys2Proof

namespace Sys2Proof.Machine

/-- Which registers an operation writes, and with what, does not depend on the packets that wait. -/
theorem State.written_set_cmds (i : Instr) (s : State) (c : List Packet) :
    State.written { s with cmds := c } i = { s.written i with cmds := c } := by
  cases i <;> rfl

/-- The result of an operation does not depend on them either. -/
theorem State.resultOf_set_cmds (i : Instr) (s : State) (c : List Packet) :
    State.resultOf { s with cmds := c } i = s.resultOf i :=
  State.resultOf_congr (fun _ => rfl) (fun _ => rfl) (fun _ => rfl) (fun _ => rfl) rfl

/-- An operation runs the same whatever packets wait, and leaves them waiting. -/
theorem exec_set_cmds (i : Instr) (s : State) (c : List Packet) :
    exec i { s with cmds := c } = .next { (s.written i).deliver (s.resultOf i) with cmds := c } := by
  rw [exec_eq_deliver, State.written_set_cmds, State.resultOf_set_cmds]
  rfl

@[simp] theorem execSeq_nil (s : State) : execSeq [] s = .next s := rfl

/-- A sequence whose first operation reaches `t` goes on from `t`. -/
theorem execSeq_cons_of_exec {i : Instr} {s t : State} (h : exec i s = .next t) (rest : List Instr) :
    execSeq (i :: rest) s = execSeq rest t := by
  simp only [execSeq, h]

/-- The packet of a well-formed operation, waiting next, runs that operation on the state without it. -/
theorem step_of_encode {s : State} {i : Instr} {rest : List Packet} (hi : i.WellFormed)
    (hc : s.cmds = encode i :: rest) : step s = exec i { s with cmds := rest } :=
  step_of_decode_ok hc (decode_encode hi)

end Sys2Proof.Machine

namespace Sys2Proof.Proofs

open Sys2Proof.Machine

/-- Settles O8, by induction on the operations. The first step and the first operation reach states that differ only in the
packets that wait (`exec_set_cmds`), and the rest goes on from there. -/
theorem operationsRunInIssueOrder : Obligations.OperationsRunInIssueOrder := by
  unfold Obligations.OperationsRunInIssueOrder
  intro ops s later hops
  induction ops generalizing s with
  | nil => rfl
  | cons i rest ih =>
    obtain ⟨hi, hrest⟩ := List.forall_mem_cons.mp hops
    have hstep : step { s with cmds := (i :: rest).map encode ++ later } =
        .next { (s.written i).deliver (s.resultOf i) with cmds := rest.map encode ++ later } :=
      (step_of_encode hi rfl).trans (exec_set_cmds i s _)
    rw [List.length_cons, run_succ_of_step hstep, execSeq_cons_of_exec (exec_set_cmds i s later)]
    exact ih _ hrest

end Sys2Proof.Proofs
end

section
/-! PROOFS. The command decoder from the side of the packet (30_encoding.md R64, R67 to R70): which bytes each format accepts,
which decoder each opcode byte selects, and from the two that an accepted packet is the packet of its operation. -/

namespace Sys2Proof

open Sys2Proof.Claims

/-! ## What each format accepts, and the bytes it then read -/

theorem decodeN_eq_ok {j i : Instr} {rest : List Byte} : decodeN j rest = .ok i ↔ rest = [] ∧ i = j := by
  cases rest <;> simp [decodeN, eq_comm]

theorem decodeB_eq_ok {mk : Byte → Instr} {rest : List Byte} {i : Instr} :
    decodeB mk rest = .ok i ↔ ∃ b, rest = [b] ∧ i = mk b := by
  match rest with
  | [] => simp [decodeB]
  | [b] => simp [decodeB, eq_comm]
  | _ :: _ :: _ => simp [decodeB]

theorem decodeW_eq_ok {mk : Word32 → Instr} {rest : List Byte} {i : Instr} :
    decodeW mk rest = .ok i ↔ ∃ w, rest = le32 w ∧ i = mk w := by
  constructor
  · intro h
    unfold decodeW at h
    split at h
    · cases h
      exact ⟨_, (le32_fromLe32 ..).symm, rfl⟩
    · split at h <;> cases h
  · rintro ⟨w, rfl, rfl⟩
    exact decodeW_le32 mk w

theorem decodeX_eq_ok {mk : Word32 → Word32 → Instr} {rest : List Byte} {i : Instr} :
    decodeX mk rest = .ok i ↔ ∃ a b, rest = le32 a ++ le32 b ∧ i = mk a b := by
  constructor
  · intro h
    unfold decodeX at h
    split at h
    · cases h
      exact ⟨_, _, by simp only [le32_fromLe32, List.cons_append, List.nil_append], rfl⟩
    · split at h <;> cases h
  · rintro ⟨a, b, rfl, rfl⟩
    exact decodeX_le32 mk a b

theorem decodeR_eq_ok {mk : Byte → Word32 → Word32 → Word32 → Instr} {rest : List Byte} {i : Instr} :
    decodeR mk rest = .ok i ↔
      ∃ flags ppin card ckey, rest = flags :: (le32 ppin ++ le32 card ++ le32 ckey) ∧ i = mk flags ppin card ckey := by
  constructor
  · intro h
    unfold decodeR at h
    split at h
    · cases h
      exact ⟨_, _, _, _, by simp only [le32_fromLe32, List.cons_append, List.nil_append], rfl⟩
    · split at h <;> cases h
  · rintro ⟨flags, ppin, card, ckey, rfl, rfl⟩
    exact decodeR_le32 mk flags ppin card ckey

theorem decodeD_eq_ok {mk : RecBytes → Byte → Word32 → Instr} {rest : List Byte} {i : Instr} :
    decodeD mk rest = .ok i ↔
      ∃ record hsel hint, rest = record.toList ++ hsel :: le32 hint ∧ i = mk record hsel hint := by
  constructor
  · intro h
    unfold decodeD at h
    split at h
    · cases h
      exact ⟨_, _, _, by simp only [RecBytes.toList, le32_fromLe32, List.cons_append, List.nil_append], rfl⟩
    · split at h <;> cases h
  · rintro ⟨record, hsel, hint, rfl, rfl⟩
    exact decodeD_toList mk record hsel hint

/-- Accepted data fits a length field, and the field in front of it is the one its length is written as. -/
theorem lengthField_of_decodeData {mk : List Byte → Instr} {n0 n1 : Byte} {data : List Byte} {i : Instr}
    (h : decodeData mk (fromLe16 n0 n1) data = .ok i) :
    data.length ≤ maxBlock ∧ le16 (BitVec.ofNat 16 data.length) = [n0, n1] ∧ i = mk data := by
  obtain ⟨hlen, rfl⟩ := decodeData_eq_ok h
  refine ⟨?_, ?_, rfl⟩
  · have := (fromLe16 n0 n1).isLt
    unfold maxBlock; omega
  · rw [hlen, BitVec.ofNat_toNat, BitVec.setWidth_eq, le16_fromLe16]

theorem decodeV_eq_ok {mk : List Byte → Instr} {rest : List Byte} {i : Instr} (h : decodeV mk rest = .ok i) :
    ∃ data : List Byte, data.length ≤ maxBlock ∧ rest = le16 (BitVec.ofNat 16 data.length) ++ data ∧ i = mk data := by
  unfold decodeV at h
  split at h
  · obtain ⟨hmax, hfield, rfl⟩ := lengthField_of_decodeData h
    exact ⟨_, hmax, by rw [hfield]; rfl, rfl⟩
  · cases h

theorem decodeS_eq_ok {mk : Byte → List Byte → Instr} {rest : List Byte} {i : Instr} (h : decodeS mk rest = .ok i) :
    ∃ (type : Byte) (payload : List Byte), payload.length ≤ maxBlock ∧
      rest = type :: (le16 (BitVec.ofNat 16 payload.length) ++ payload) ∧ i = mk type payload := by
  unfold decodeS at h
  split at h
  · obtain ⟨hmax, hfield, rfl⟩ := lengthField_of_decodeData h
    exact ⟨_, _, hmax, by rw [hfield]; rfl, rfl⟩
  · cases h

/-! ## The lengths each format accepts (30_encoding.md R64, R70) -/

theorem decodeN_accepts {j : Instr} {rest : List Byte} : (∃ i, decodeN j rest = .ok i) ↔ rest.length = 0 := by
  simp [decodeN_eq_ok]

theorem decodeB_accepts {mk : Byte → Instr} {rest : List Byte} :
    (∃ i, decodeB mk rest = .ok i) ↔ rest.length = 1 := by
  simp [decodeB_eq_ok, List.length_eq_one_iff]

theorem decodeW_accepts {mk : Word32 → Instr} {rest : List Byte} :
    (∃ i, decodeW mk rest = .ok i) ↔ rest.length = 4 := by
  constructor
  · rintro ⟨i, h⟩
    obtain ⟨w, rfl, -⟩ := decodeW_eq_ok.mp h
    rfl
  · intro h
    match rest, h with
    | [_, _, _, _], _ => exact ⟨_, rfl⟩

theorem decodeX_accepts {mk : Word32 → Word32 → Instr} {rest : List Byte} :
    (∃ i, decodeX mk rest = .ok i) ↔ rest.length = 8 := by
  constructor
  · rintro ⟨i, h⟩
    obtain ⟨a, b, rfl, -⟩ := decodeX_eq_ok.mp h
    rfl
  · intro h
    match rest, h with
    | [_, _, _, _, _, _, _, _], _ => exact ⟨_, rfl⟩

theorem decodeR_accepts {mk : Byte → Word32 → Word32 → Word32 → Instr} {rest : List Byte} :
    (∃ i, decodeR mk rest = .ok i) ↔ rest.length = 13 := by
  constructor
  · rintro ⟨i, h⟩
    obtain ⟨flags, ppin, card, ckey, rfl, -⟩ := decodeR_eq_ok.mp h
    rfl
  · intro h
    match rest, h with
    | [_, _, _, _, _, _, _, _, _, _, _, _, _], _ => exact ⟨_, rfl⟩

theorem decodeD_accepts {mk : RecBytes → Byte → Word32 → Instr} {rest : List Byte} :
    (∃ i, decodeD mk rest = .ok i) ↔ rest.length = 10 := by
  constructor
  · rintro ⟨i, h⟩
    obtain ⟨record, hsel, hint, rfl, -⟩ := decodeD_eq_ok.mp h
    rfl
  · intro h
    match rest, h with
    | [_, _, _, _, _, _, _, _, _, _], _ => exact ⟨_, rfl⟩

theorem decodeData_accepts {mk : List Byte → Instr} {n0 n1 : Byte} {data : List Byte} :
    (∃ i, decodeData mk (fromLe16 n0 n1) data = .ok i) ↔ data.length = n0.toNat + 256 * n1.toNat := by
  rw [← fromLe16_toNat]
  constructor
  · rintro ⟨i, h⟩
    exact (decodeData_eq_ok h).1
  · exact fun h => ⟨_, decodeData_ok mk _ data h⟩

theorem decodeV_accepts {mk : List Byte → Instr} {rest : List Byte} :
    (∃ i, decodeV mk rest = .ok i) ↔
      rest.length = 2 + ((rest.getD 0 0).toNat + 256 * (rest.getD 1 0).toNat) := by
  match rest with
  | [] => simp [decodeV]
  | [_] => simp [decodeV]; omega
  | n0 :: n1 :: data =>
    refine decodeData_accepts.trans ?_
    simp only [List.length_cons, List.getD_cons_zero, List.getD_cons_succ]
    omega

theorem decodeS_accepts {mk : Byte → List Byte → Instr} {rest : List Byte} :
    (∃ i, decodeS mk rest = .ok i) ↔
      rest.length = 3 + ((rest.getD 1 0).toNat + 256 * (rest.getD 2 0).toNat) := by
  match rest with
  | [] => simp [decodeS]
  | [_] => simp [decodeS]
  | [_, _] => simp [decodeS]; omega
  | type :: n0 :: n1 :: payload =>
    refine decodeData_accepts.trans ?_
    simp only [List.length_cons, List.getD_cons_zero, List.getD_cons_succ]
    omega

/-! ## Which decoder an opcode byte selects (30_encoding.md R68) -/

/-- `Selects op rest o`: `o` is how `rest` is read behind the opcode byte `op`, by the decoder of the opcode's format. A format
with several opcodes is described by what they share: `encode` writes `op` for the operations its decoder makes, and the
packet has one required length. A format with a single opcode names it. -/
inductive Selects : Byte → List Byte → Except Reject Instr → Prop
  | n {op rest} (j : Instr) (hwf : j.WellFormed) (henc : encode j = [op])
      (hlen : requiredLength (op :: rest) = some 1) : Selects op rest (decodeN j rest)
  | b {op rest} (mk : Byte → Instr) (hwf : ∀ b, (mk b).WellFormed) (henc : ∀ b, encode (mk b) = [op, b])
      (hlen : requiredLength (op :: rest) = some 2) : Selects op rest (decodeB mk rest)
  | v {op rest} (mk : List Byte → Instr) (hwf : ∀ data : List Byte, data.length ≤ maxBlock → (mk data).WellFormed)
      (henc : ∀ data, encode (mk data) = encodeV op data)
      (hlen : requiredLength (op :: rest) = some (3 + ((rest.getD 0 0).toNat + 256 * (rest.getD 1 0).toNat))) :
      Selects op rest (decodeV mk rest)
  | w {rest} : Selects 0x34 rest (decodeW .pinUnpk rest)
  | x {rest} : Selects 0x35 rest (decodeX .keyXor rest)
  | r {rest} : Selects 0x36 rest (decodeR .recEnc rest)
  | d {rest} : Selects 0x37 rest (decodeD .recDec rest)
  | s {rest} : Selects 0x40 rest (decodeS .ftxSend rest)
  | unassigned {op rest} (hlen : requiredLength (op :: rest) = none) :
      Selects op rest (.error .unknownOpcode)

theorem decode_of_unassigned {op : Byte} (hop : op ∉ opcodeMap.map (·.opcode)) (rest : List Byte) :
    decode (op :: rest) = .error .unknownOpcode := by
  simp only [opcodeMap, List.map_cons, List.map_nil, List.mem_cons, List.not_mem_nil, or_false, not_or,
    ← BitVec.toNat_inj] at hop
  simp_all [decode]

theorem requiredLength_of_unassigned {op : Byte} (hop : op ∉ opcodeMap.map (·.opcode)) (rest : List Byte) :
    requiredLength (op :: rest) = none := by
  simp only [opcodeMap, List.map_cons, List.map_nil, List.mem_cons, List.not_mem_nil, or_false, not_or] at hop
  simp only [requiredLength, List.mem_cons, List.not_mem_nil, hop, or_self, if_false]

/-- The opcode map, row by row, as the decoder, the encoder and the length table read it. -/
theorem decode_selects (op : Byte) (rest : List Byte) : Selects op rest (decode (op :: rest)) := by
  by_cases hop : op ∈ opcodeMap.map (·.opcode)
  · simp only [opcodeMap, List.map_cons, List.map_nil, List.mem_cons, List.not_mem_nil, or_false] at hop
    rcases hop with rfl | rfl | rfl | rfl | rfl | rfl | rfl | rfl | rfl | rfl | rfl | rfl | rfl | rfl | rfl | rfl |
      rfl | rfl | rfl | rfl | rfl | rfl | rfl
    · exact .n .crcClr rfl rfl rfl
    · exact .b .crcUpd (fun _ => rfl) (fun _ => rfl) rfl
    · exact .n .crcRd rfl rfl rfl
    · exact .v .crcBlk (fun _ => decide_eq_true) (fun _ => rfl) rfl
    · exact .b .escEnc (fun _ => rfl) (fun _ => rfl) rfl
    · exact .b .escDec (fun _ => rfl) (fun _ => rfl) rfl
    · exact .n .escFlush rfl rfl rfl
    · exact .n .escClr rfl rfl rfl
    · exact .v .escEncb (fun _ => decide_eq_true) (fun _ => rfl) rfl
    · exact .v .escDecb (fun _ => decide_eq_true) (fun _ => rfl) rfl
    · exact .b .frxByte (fun _ => rfl) (fun _ => rfl) rfl
    · exact .n .frxEos rfl rfl rfl
    · exact .n .frxTmo rfl rfl rfl
    · exact .n .frxClr rfl rfl rfl
    · exact .n .pinClr rfl rfl rfl
    · exact .b .pinDig (fun _ => rfl) (fun _ => rfl) rfl
    · exact .n .pinRd rfl rfl rfl
    · exact .v .pinPack (fun _ => decide_eq_true) (fun _ => rfl) rfl
    · exact .w
    · exact .x
    · exact .r
    · exact .d
    · exact .s
  · rw [decode_of_unassigned hop]
    exact .unassigned (requiredLength_of_unassigned hop rest)

/-- The decoder inverts the encoder on the packets it accepts: no bit of one is dropped (30_encoding.md R67, R69). -/
theorem encode_of_decode_ok {p : Packet} {i : Instr} (h : decode p = .ok i) : i.WellFormed ∧ encode i = p := by
  cases p with
  | nil => cases h
  | cons op rest =>
    have hs := decode_selects op rest
    generalize decode (op :: rest) = o at hs h
    cases hs with
    | n j hwf henc _ =>
      obtain ⟨rfl, rfl⟩ := decodeN_eq_ok.mp h
      exact ⟨hwf, henc⟩
    | b mk hwf henc _ =>
      obtain ⟨b, rfl, rfl⟩ := decodeB_eq_ok.mp h
      exact ⟨hwf b, henc b⟩
    | v mk hwf henc _ =>
      obtain ⟨data, hmax, rfl, rfl⟩ := decodeV_eq_ok h
      exact ⟨hwf data hmax, henc data⟩
    | w =>
      obtain ⟨w, rfl, rfl⟩ := decodeW_eq_ok.mp h
      exact ⟨rfl, rfl⟩
    | x =>
      obtain ⟨a, b, rfl, rfl⟩ := decodeX_eq_ok.mp h
      exact ⟨rfl, rfl⟩
    | r =>
      obtain ⟨flags, ppin, card, ckey, rfl, rfl⟩ := decodeR_eq_ok.mp h
      exact ⟨rfl, rfl⟩
    | d =>
      obtain ⟨record, hsel, hint, rfl, rfl⟩ := decodeD_eq_ok.mp h
      exact ⟨rfl, rfl⟩
    | s =>
      obtain ⟨type, payload, hmax, rfl, rfl⟩ := decodeS_eq_ok h
      exact ⟨decide_eq_true hmax, rfl⟩
    | unassigned _ => cases h

/-- A packet is accepted exactly at the length its opcode requires (30_encoding.md R68 to R70). -/
theorem decode_accepts (p : Packet) : (∃ i, decode p = .ok i) ↔ requiredLength p = some p.length := by
  cases p with
  | nil => simp [decode, requiredLength]
  | cons op rest =>
    have hs := decode_selects op rest
    generalize decode (op :: rest) = o at hs ⊢
    cases hs with
    | n j _ _ hlen => rw [decodeN_accepts, hlen, Option.some_inj, List.length_cons]; omega
    | b mk _ _ hlen => rw [decodeB_accepts, hlen, Option.some_inj, List.length_cons]; omega
    | v mk _ _ hlen => rw [decodeV_accepts, hlen, Option.some_inj, List.length_cons]; omega
    | w =>
      have hlen : requiredLength (0x34 :: rest) = some 5 := rfl
      rw [decodeW_accepts, hlen, Option.some_inj, List.length_cons]; omega
    | x =>
      have hlen : requiredLength (0x35 :: rest) = some 9 := rfl
      rw [decodeX_accepts, hlen, Option.some_inj, List.length_cons]; omega
    | r =>
      have hlen : requiredLength (0x36 :: rest) = some 14 := rfl
      rw [decodeR_accepts, hlen, Option.some_inj, List.length_cons]; omega
    | d =>
      have hlen : requiredLength (0x37 :: rest) = some 11 := rfl
      rw [decodeD_accepts, hlen, Option.some_inj, List.length_cons]; omega
    | s =>
      have hlen : requiredLength (0x40 :: rest) =
          some (4 + ((rest.getD 1 0).toNat + 256 * (rest.getD 2 0).toNat)) := rfl
      rw [decodeS_accepts, hlen, Option.some_inj, List.length_cons]; omega
    | unassigned hlen => simp [hlen]

end Sys2Proof
end

section
/-! PROOFS. The nibbles of a packed PIN (30_encoding.md R62; 45_access_codec.md R140). -/

namespace Sys2Proof.Machine

open Sys2Proof.Claims

/-- Shifting a digit in, on numbers: the top nibble leaves and the digit is the lowest. -/
theorem pinShift_toNat (a : Word32) {d : Byte} (hd : d.toNat < 16) :
    (pinShift a d).toNat = 16 * (a.toNat % 2 ^ 28) + d.toNat := by
  have hor := Nat.two_pow_add_eq_or_of_lt (i := 4) hd (a.toNat % 2 ^ 28)
  have hshift : a.toNat * 2 ^ 4 % 2 ^ 32 = 2 ^ 4 * (a.toNat % 2 ^ 28) := by omega
  have hext : d.toNat % 2 ^ 32 = d.toNat := Nat.mod_eq_of_lt (by omega)
  simp only [pinShift, BitVec.toNat_or, BitVec.toNat_shiftLeft, BitVec.truncate_eq_setWidth, BitVec.toNat_setWidth,
    Nat.shiftLeft_eq, hshift, hext, ← hor]

theorem topNibble_pinInit {i : Nat} (hi : i < 8) : topNibble pinInit i = 15 := by
  interval_cases i <;> rfl

/-- Every nibble but the lowest is the one that stood below it. -/
theorem topNibble_pinShift_of_lt (a : Word32) {d : Byte} (hd : d.toNat < 16) {i : Nat} (hi : i < 7) :
    topNibble (pinShift a d) i = topNibble a (i + 1) := by
  unfold topNibble
  rw [pinShift_toNat a hd]
  interval_cases i <;> omega

/-- The lowest nibble is the digit. -/
theorem topNibble_pinShift_last (a : Word32) {d : Byte} (hd : d.toNat < 16) :
    topNibble (pinShift a d) 7 = d.toNat := by
  unfold topNibble
  rw [pinShift_toNat a hd]
  omega

/-- The layout of R62, by induction on the last digit: it becomes the lowest nibble, and the nibbles of the digits before it
each move up by one. -/
theorem topNibble_packPin {ds : List Byte} (hds : AllDigits ds) (hlen : ds.length ≤ 8) {i : Nat} (hi : i < 8) :
    topNibble (packPin ds) i = if i < 8 - ds.length then 15 else (ds.getD (i - (8 - ds.length)) 0).toNat := by
  induction ds using List.reverseRecOn generalizing i with
  | nil => rw [packPin_nil, topNibble_pinInit hi, if_pos (by simpa using hi)]
  | append_singleton ds d ih =>
    have hinit : AllDigits ds := fun e he => hds e (List.mem_append_left _ he)
    have hd : d.toNat < 16 := by
      have := hds d (by simp)
      omega
    rw [List.length_append, List.length_singleton] at hlen ⊢
    rw [packPin_concat]
    rcases Nat.lt_succ_iff_lt_or_eq.mp hi with hi7 | rfl
    · rw [topNibble_pinShift_of_lt _ hd hi7, ih hinit (by omega) (by omega)]
      by_cases hfill : i + 1 < 8 - ds.length
      · rw [if_pos hfill, if_pos (by omega)]
      · have hpos : i + 1 - (8 - ds.length) = i - (8 - (ds.length + 1)) := by omega
        rw [if_neg hfill, if_neg (by omega), List.getD_append _ _ _ _ (by omega), hpos]
    · have hpos : 7 - (8 - (ds.length + 1)) - ds.length = 0 := by omega
      rw [topNibble_pinShift_last _ hd, if_neg (by omega), List.getD_append_right _ _ _ _ (by omega), hpos,
        List.getD_cons_zero]

/-- What the accumulator held is shifted up by a nibble for each digit. -/
theorem foldl_pinShift (ds : List Byte) (a : Word32) :
    ds.foldl pinShift a = a <<< (4 * ds.length) ||| ds.foldl pinShift 0 := by
  induction ds using List.reverseRecOn with
  | nil => simp
  | append_singleton ds d ih =>
    rw [List.foldl_concat, List.foldl_concat, ih, List.length_append, List.length_singleton]
    simp only [pinShift, BitVec.shiftLeft_or_distrib, ← BitVec.shiftLeft_add, BitVec.or_assoc, Nat.mul_add]

/-- Eight digits or more push out all the accumulator held. -/
theorem foldl_pinShift_of_eight_le {ds : List Byte} (h : 8 ≤ ds.length) (a b : Word32) :
    ds.foldl pinShift a = ds.foldl pinShift b := by
  rw [foldl_pinShift ds a, foldl_pinShift ds b, BitVec.shiftLeft_eq_zero (by omega), BitVec.shiftLeft_eq_zero (by omega)]

/-- Only the last eight digits reach the packed PIN (45_access_codec.md R140). -/
theorem packPin_append_of_eight_le (front : List Byte) {ds : List Byte} (h : 8 ≤ ds.length) :
    packPin (front ++ ds) = packPin ds := by
  unfold packPin
  rw [List.foldl_append]
  exact foldl_pinShift_of_eight_le h _ _

end Sys2Proof.Machine
end

section
/-! PROOFS. The statements about the command packets and the packed PIN (30_encoding.md). -/

namespace Sys2Proof.Proofs

open Sys2Proof.Machine

/-- Settles O1: `decode_encode`, case by case on the operation's format. -/
theorem decodeInvertsEncode : Obligations.DecodeInvertsEncode := by
  unfold Obligations.DecodeInvertsEncode
  exact fun _ => decode_encode

/-- Settles O2: `encode_of_decode_ok`, case by case on the decoder the packet's opcode selects. -/
theorem encodeInvertsDecode : Obligations.EncodeInvertsDecode := by
  unfold Obligations.EncodeInvertsDecode
  exact fun _ _ => encode_of_decode_ok

/-- Settles O3: the same cases, each format with the lengths it accepts (`decode_accepts`). -/
theorem packetAcceptedExactlyAtItsLength : Obligations.PacketAcceptedExactlyAtItsLength := by
  unfold Obligations.PacketAcceptedExactlyAtItsLength
  exact decode_accepts

/-- Settles O52: the layout by `topNibble_packPin`; of a longer sequence the digits before the last eight are pushed out. -/
theorem packedPinLayout : Obligations.PackedPinLayout := by
  unfold Obligations.PackedPinLayout
  refine fun ds hds => ⟨fun hlen i hi => topNibble_packPin hds hlen hi, fun hlen => ?_⟩
  have hlast : 8 ≤ (ds.drop (ds.length - 8)).length := by rw [List.length_drop]; omega
  calc packPin ds
      = packPin (ds.take (ds.length - 8) ++ ds.drop (ds.length - 8)) := by rw [List.take_append_drop]
    _ = packPin (ds.drop (ds.length - 8)) := packPin_append_of_eight_le _ hlast

/-- Settles O7: each packet is the one `encode` writes for its operation, so `decode_encode` reads it back. -/
theorem writtenPacketsDecode : Obligations.WrittenPacketsDecode := by
  unfold Obligations.WrittenPacketsDecode
  exact ⟨decode_encode (i := .crcUpd 0x31) rfl, decode_encode (i := .escEncb [0x7D, 0x7E, 0x20]) rfl,
    decode_encode (i := .frxTmo) rfl, decode_encode (i := .pinUnpk 0xFFFF1234) rfl,
    decode_encode (i := .keyXor 0x00ABCDEF 0xFFFF1234) rfl,
    decode_encode (i := .recDec ⟨0xDB, 0xDF, 0x54, 0xFF, 0x33⟩ 0x01 0xFFFF1234) rfl,
    decode_encode (i := .ftxSend 0x14 [0x05, 0x00]) rfl⟩

end Sys2Proof.Proofs
end

section
/-! PROOFS. The bit loop of the CRC unit (41_crc.md R80, R81): the same loop on numbers; that it loses nothing,
neither of the accumulator nor of the byte; and that a sequence of CRC.UPD runs it. -/

namespace Sys2Proof.Machine

open Sys2Proof.Claims

/-! ### The loop on numbers -/

/-- The bit that leaves at the top, as a digit of the number. -/
theorem getLsbD_fifteen_iff (c : Word16) : c.getLsbD 15 = true ↔ c.toNat / 2 ^ 15 % 2 = 1 := by
  rw [← BitVec.testBit_toNat, Nat.testBit_eq_decide_div_mod_eq, decide_eq_true_iff]

theorem toNat_shiftLeft_one (c : Word16) : (c <<< 1).toNat = c.toNat * 2 % 2 ^ 16 := by
  rw [BitVec.toNat_shiftLeft, Nat.shiftLeft_eq, pow_one]

theorem crcShift_toNat (c : Word16) : (crcShift c).toNat = crcTurn c.toNat := by
  unfold crcShift crcTurn
  by_cases htop : c.getLsbD 15 = true
  · rw [if_pos htop, if_pos ((getLsbD_fifteen_iff c).mp htop), BitVec.toNat_xor, toNat_shiftLeft_one]
    rfl
  · rw [if_neg htop, if_neg (mt (getLsbD_fifteen_iff c).mpr htop), toNat_shiftLeft_one]

theorem crcShifts_toNat (k : Nat) (c : Word16) : (crcShifts k c).toNat = crcTurn^[k] c.toNat := by
  induction k generalizing c with
  | zero => rfl
  | succ k ih => rw [crcShifts, ih, crcShift_toNat, Function.iterate_succ_apply]

/-- The byte at the top of the accumulator is `b * 2^8`, with nothing shifted out. -/
theorem byte_high_toNat (b : Byte) : (b.zeroExtend 16 <<< 8).toNat = b.toNat * 2 ^ 8 := by
  have hb := b.isLt
  rw [BitVec.toNat_shiftLeft, BitVec.zeroExtend, BitVec.toNat_setWidth, Nat.shiftLeft_eq]
  omega

theorem crcByte_toNat (c : Word16) (b : Byte) : (crcByte c b).toNat = crcByteNumber c.toNat b.toNat := by
  rw [crcByte, crcShifts_toNat, BitVec.toNat_xor, byte_high_toNat, crcByteNumber]

theorem crc16_toNat (data : List Byte) : (crc16 data).toNat = crc16Number data := by
  induction data using List.reverseRecOn with
  | nil => rfl
  | append_singleton data b ih =>
    rw [crc16_concat, crcByte_toNat, ih]
    simp only [crc16Number, List.foldl_concat]

theorem ofNat_crcByteNumber (c : Word16) (b : Byte) :
    BitVec.ofNat 16 (crcByteNumber c.toNat b.toNat) = crcByte c b := by
  rw [← crcByte_toNat, BitVec.ofNat_toNat, BitVec.setWidth_eq]

theorem ofNat_crc16Number (data : List Byte) : BitVec.ofNat 16 (crc16Number data) = crc16 data := by
  rw [← crc16_toNat, BitVec.ofNat_toNat, BitVec.setWidth_eq]

/-! ### The loop loses nothing -/

/-- The bit that leaves at the top comes back as bit 0, since the generator has the term 1. -/
theorem crcShift_getLsbD_zero (c : Word16) : (crcShift c).getLsbD 0 = c.getLsbD 15 := by
  unfold crcShift
  cases c.getLsbD 15 <;> simp [crcPoly]

/-- So one turn can be undone: bit 0 says whether the generator went in, and it is the bit the shift lost. -/
theorem crcShift_injective : Function.Injective crcShift := by
  intro a b h
  have htop : a.getLsbD 15 = b.getLsbD 15 := by
    rw [← crcShift_getLsbD_zero, h, crcShift_getLsbD_zero]
  have hshift : a <<< 1 = b <<< 1 := by
    unfold crcShift at h
    rw [htop] at h
    split at h
    · exact (BitVec.xor_left_inj crcPoly).mp h
    · exact h
  ext i hi
  rcases Nat.lt_succ_iff_lt_or_eq.mp hi with hlow | rfl
  · simpa [show i + 1 < 16 by omega] using congrArg (BitVec.getLsbD · (i + 1)) hshift
  · exact htop

theorem crcShifts_injective (k : Nat) : Function.Injective (crcShifts k) := by
  induction k with
  | zero => exact fun _ _ h => h
  | succ k ih => exact ih.comp crcShift_injective

theorem byte_high_injective : Function.Injective fun b : Byte => b.zeroExtend 16 <<< 8 := by
  intro x y h
  have hnum := congrArg BitVec.toNat h
  simp only [byte_high_toNat] at hnum
  exact BitVec.eq_of_toNat_eq (by omega)

/-- From one accumulator, different bytes give different CRCs. -/
theorem crcByte_injective_byte (c : Word16) : Function.Injective (crcByte c) := fun _ _ h =>
  byte_high_injective ((BitVec.xor_right_inj c).mp (crcShifts_injective 8 h))

/-- From different accumulators, one byte gives different CRCs. -/
theorem crcByte_injective_crc (b : Byte) : Function.Injective (crcByte · b) := fun _ _ h =>
  (BitVec.xor_left_inj _).mp (crcShifts_injective 8 h)

/-- A difference in the accumulator survives any bytes that follow. -/
theorem foldl_crcByte_injective (data : List Byte) : Function.Injective (data.foldl crcByte ·) := by
  induction data with
  | nil => exact fun _ _ h => h
  | cons b rest ih => exact ih.comp (crcByte_injective_crc b)

/-- The error detection of R86: the changed byte makes the accumulators differ, and the bytes behind it keep them so. -/
theorem crc16_ne_of_byte_ne (before after : List Byte) {x y : Byte} (hxy : x ≠ y) :
    crc16 (before ++ x :: after) ≠ crc16 (before ++ y :: after) := by
  rw [crc16_append, crc16_append]
  exact (foldl_crcByte_injective after).ne ((crcByte_injective_byte (crc16 before)).ne hxy)

/-! ### A sequence of CRC.UPD -/

/-- CRC.UPD of each byte in order folds `crcByte` over them and delivers one empty result for each (41_crc.md R83). -/
theorem execSeq_crcUpd (data : List Byte) (rest : List Instr) (s : State) :
    execSeq (data.map .crcUpd ++ rest) s = execSeq rest { s with
      crc := data.foldl crcByte s.crc
      rsps := s.rsps ++ List.replicate data.length (okResult .none []) } := by
  induction data generalizing s with
  | nil => simp
  | cons b data ih =>
    rw [List.map_cons, List.cons_append, execSeq_cons_of_exec (exec_eq_deliver (.crcUpd b) s), ih]
    simp [State.written, State.resultOf, State.deliver, List.replicate_succ]

/-- From CRC.CLR the fold starts at 0, so it is `crc16` of the bytes, and CRC.RD reports that (41_crc.md R82, R84). -/
theorem execSeq_crcClr_crcUpd_crcRd (data : List Byte) (s : State) :
    execSeq (.crcClr :: (data.map .crcUpd ++ [.crcRd])) s = .next { s with
      crc := crc16 data
      rsps := s.rsps ++ [okResult .none []] ++ List.replicate data.length (okResult .none []) ++
        [okResult (.u16 (crc16 data)) []] } := by
  rw [execSeq_cons_of_exec (exec_eq_deliver .crcClr s), execSeq_crcUpd,
    execSeq_cons_of_exec (exec_eq_deliver .crcRd _)]
  rfl

end Sys2Proof.Machine
end

section
/-! PROOFS. The statements about the CRC unit (41_crc.md). -/

namespace Sys2Proof.Proofs

open Sys2Proof.Machine

/-- Settles O19: CRC.UPD runs `crcByte`, which on numbers is the loop of R80 (`crcByte_toNat`). -/
theorem crcUpdRunsTheBitLoop : Obligations.CrcUpdRunsTheBitLoop := by
  unfold Obligations.CrcUpdRunsTheBitLoop
  intro b s
  rw [ofNat_crcByteNumber]
  exact exec_eq_deliver (.crcUpd b) s

/-- Settles O20: CRC.BLK leaves and reports `crc16`, which on numbers is the fold of that loop (`crc16_toNat`). -/
theorem crcBlkFoldsTheBitLoop : Obligations.CrcBlkFoldsTheBitLoop := by
  unfold Obligations.CrcBlkFoldsTheBitLoop
  intro data s
  rw [ofNat_crc16Number]
  exact exec_eq_deliver (.crcBlk data) s

/-- Settles O21: the sequence reports `crc16` of the block as its last result and leaves it in CRC, as CRC.BLK does
(`execSeq_crcClr_crcUpd_crcRd`). -/
theorem crcBlkIsTheByteSequence : Obligations.CrcBlkIsTheByteSequence := by
  unfold Obligations.CrcBlkIsTheByteSequence
  intro data s
  exact ⟨_, _, [okResult .none []] ++ List.replicate data.length (okResult .none []), okResult (.u16 (crc16 data)) [],
    execSeq_crcClr_crcUpd_crcRd data s, by rw [List.append_assoc s.rsps], exec_eq_deliver (.crcBlk data) s, rfl,
    rfl, rfl, rfl, rfl, rfl⟩

/-- Settles O22: CRC.BLK leaves and reports `crc16` of each block, and these differ (`crc16_ne_of_byte_ne`). -/
theorem singleByteChangeChangesTheCrc : Obligations.SingleByteChangeChangesTheCrc := by
  unfold Obligations.SingleByteChangeChangesTheCrc
  intro before after x y s hxy
  exact ⟨_, _, crc16_ne_of_byte_ne before after hxy, exec_eq_deliver (.crcBlk _) s, exec_eq_deliver (.crcBlk _) s⟩

/-- Settles O18: each packet is the one `encode` writes for its operation, and each operation is its register writes and its
result (`exec_eq_deliver`). -/
theorem crcClearAndRead : Obligations.CrcClearAndRead := by
  unfold Obligations.CrcClearAndRead
  intro s
  exact ⟨decode_encode (i := .crcClr) rfl, decode_encode (i := .crcRd) rfl, exec_eq_deliver .crcClr s,
    exec_eq_deliver .crcRd s⟩

end Sys2Proof.Proofs
end

section
/-! PROOFS. Escaping and unescaping a buffer (42_escape.md R90 to R93): what `unescape` makes of each first byte, that it undoes
`escape`, and which sequences `escape` gives. -/

namespace Sys2Proof.Machine

open Sys2Proof.Claims

/-- A byte that starts no pair is kept, whatever follows it. -/
theorem replacePair_cons_of_ne {x y z a : Byte} (h : a ≠ x) (rest : List Byte) :
    replacePair x y z (a :: rest) = a :: replacePair x y z rest := by
  cases rest with
  | nil => rfl
  | cons b rest => exact replacePair_miss rest fun hab => h hab.1

/-- The first byte of a result is the first byte of the input or the replacement. -/
theorem replacePair_cons_head (x y z a : Byte) (rest : List Byte) :
    ∃ c out, replacePair x y z (a :: rest) = c :: out ∧ (c = a ∨ c = z) := by
  cases rest with
  | nil => exact ⟨a, [], rfl, .inl rfl⟩
  | cons b rest =>
    by_cases h : a = x ∧ b = y
    · exact ⟨z, _, by rw [h.1, h.2, replacePair_hit], .inr rfl⟩
    · exact ⟨a, _, replacePair_miss rest h, .inl rfl⟩

/-! ### What `unescape` makes of the first byte -/

theorem unescape_cons_of_ne {a : Byte} (h : a ≠ escByte) (rest : List Byte) :
    unescape (a :: rest) = a :: unescape rest := by
  unfold unescape
  rw [replacePair_cons_of_ne h, replacePair_cons_of_ne h]

theorem unescape_syncPair (rest : List Byte) :
    unescape (escByte :: escOfSync :: rest) = syncByte :: unescape rest := by
  unfold unescape
  rw [replacePair_hit, replacePair_cons_of_ne (by decide : syncByte ≠ escByte)]

theorem unescape_escPair (rest : List Byte) :
    unescape (escByte :: escOfEsc :: rest) = escByte :: unescape rest := by
  unfold unescape
  rw [replacePair_miss rest (by decide), replacePair_cons_of_ne (by decide : escOfEsc ≠ escByte), replacePair_hit]

/-- A marker before any other byte is literal: the first replacement keeps that byte or makes a `7E` of its pair, so the second
finds no pair here either. -/
theorem unescape_literalMarker {b : Byte} (hsync : b ≠ escOfSync) (hesc : b ≠ escOfEsc) (rest : List Byte) :
    unescape (escByte :: b :: rest) = escByte :: unescape (b :: rest) := by
  obtain ⟨c, out, hfirst, hc⟩ := replacePair_cons_head escByte escOfSync syncByte b rest
  have hne : c ≠ escOfEsc := by
    rcases hc with rfl | rfl
    · exact hesc
    · decide
  unfold unescape
  rw [replacePair_miss rest fun h => hsync h.2, hfirst, replacePair_miss out fun h => hne h.2]

/-! ### The round trip -/

/-- The last row of R90. -/
theorem esc1_eq_singleton {b : Byte} (hesc : b ≠ escByte) (hsync : b ≠ syncByte) : esc1 b = [b] := by
  rw [esc1, if_neg hesc, if_neg hsync]

theorem unescape_esc1_append (b : Byte) (rest : List Byte) : unescape (esc1 b ++ rest) = b :: unescape rest := by
  rcases esc1_cases b with ⟨rfl, h⟩ | ⟨rfl, h⟩ | ⟨hesc, -, h⟩ <;> rw [h]
  · exact unescape_escPair rest
  · exact unescape_syncPair rest
  · exact unescape_cons_of_ne hesc rest

theorem unescape_escape (s : List Byte) : unescape (escape s) = s := by
  induction s with
  | nil => rfl
  | cons b s ih => rw [escape_cons, unescape_esc1_append, ih]

/-! ### The two replacements of R91 -/

/-- On one byte: the first replacement makes no `7E`, so the second acts on a `7E` of the input only. -/
theorem esc1_eq_replaceByte (b : Byte) :
    esc1 b = replaceByte 0x7E [0x7D, 0x5E] (if b = 0x7D then [0x7D, 0x5D] else [b]) := by
  rcases esc1_cases b with ⟨rfl, h⟩ | ⟨rfl, h⟩ | ⟨hesc, hsync, h⟩ <;> rw [h]
  · rfl
  · rfl
  · rw [if_neg (show ¬b = 0x7D from hesc), replaceByte, List.flatMap_singleton, if_neg (show ¬b = 0x7E from hsync)]

theorem escape_eq_replaceByte (s : List Byte) :
    escape s = replaceByte 0x7E [0x7D, 0x5E] (replaceByte 0x7D [0x7D, 0x5D] s) :=
  calc escape s
      = s.flatMap fun b => replaceByte 0x7E [0x7D, 0x5E] (if b = 0x7D then [0x7D, 0x5D] else [b]) :=
        congrArg s.flatMap (funext esc1_eq_replaceByte)
    _ = replaceByte 0x7E [0x7D, 0x5E] (replaceByte 0x7D [0x7D, 0x5D] s) := List.flatMap_assoc.symm

/-! ### The canonical sequences (R93) -/

theorem canonicalEscaped_nil : CanonicalEscaped [] := ⟨List.not_mem_nil, fun _ h => nomatch h⟩

/-- Canonicity by the first byte: it is no sync, and if it is a marker the next byte completes its pair. -/
theorem canonicalEscaped_cons (a : Byte) (rest : List Byte) :
    CanonicalEscaped (a :: rest) ↔
      a ≠ syncByte ∧ (a = escByte → rest.head? = some escOfEsc ∨ rest.head? = some escOfSync) ∧ CanonicalEscaped rest := by
  unfold CanonicalEscaped
  rw [← Nat.and_forall_add_one, List.mem_cons, not_or]
  simp only [List.head?_eq_getElem?, List.getElem?_cons_zero, List.getElem?_cons_succ, Option.some.injEq, Nat.zero_add]
  constructor
  · rintro ⟨⟨ha, hmem⟩, hpair, hrest⟩
    exact ⟨fun h => ha h.symm, hpair, hmem, hrest⟩
  · rintro ⟨ha, hpair, hmem, hrest⟩
    exact ⟨⟨fun h => ha h.symm, hmem⟩, hpair, hrest⟩

/-- The escape of a byte in front keeps a sequence canonical, and taking it off does too. -/
theorem canonicalEscaped_esc1_append (b : Byte) (rest : List Byte) :
    CanonicalEscaped (esc1 b ++ rest) ↔ CanonicalEscaped rest := by
  rcases esc1_cases b with ⟨-, h⟩ | ⟨-, h⟩ | ⟨hesc, hsync, h⟩ <;> rw [h]
  · simp [canonicalEscaped_cons, escByte, escOfEsc, syncByte]
  · simp [canonicalEscaped_cons, escByte, escOfSync, syncByte]
  · simp [canonicalEscaped_cons, hesc, hsync]

theorem canonicalEscaped_escape (s : List Byte) : CanonicalEscaped (escape s) := by
  induction s with
  | nil => exact canonicalEscaped_nil
  | cons b s ih => exact (canonicalEscaped_esc1_append b _).mpr ih

/-- A canonical sequence starts with the escape of a byte. -/
theorem exists_esc1_append_of_canonicalEscaped {a : Byte} {rest : List Byte} (h : CanonicalEscaped (a :: rest)) :
    ∃ b tail, a :: rest = esc1 b ++ tail := by
  obtain ⟨hsync, hpair, -⟩ := (canonicalEscaped_cons a rest).mp h
  by_cases ha : a = escByte
  · subst ha
    rcases hpair rfl with hnext | hnext <;> obtain ⟨tail, rfl⟩ := List.head?_eq_some_iff.mp hnext
    · exact ⟨escByte, tail, rfl⟩
    · exact ⟨syncByte, tail, rfl⟩
  · exact ⟨a, rest, by rw [esc1_eq_singleton ha hsync, List.singleton_append]⟩

theorem esc1_length_pos (b : Byte) : 0 < (esc1 b).length := by
  rcases esc1_cases b with ⟨-, h⟩ | ⟨-, h⟩ | ⟨-, -, h⟩ <;> rw [h] <;> exact Nat.succ_pos _

/-- By induction on the length: the escape of one byte is taken off the front. -/
theorem exists_escape_of_canonicalEscaped {y : List Byte} (h : CanonicalEscaped y) : ∃ x, y = escape x := by
  match y with
  | [] => exact ⟨[], rfl⟩
  | a :: rest =>
    obtain ⟨b, tail, heq⟩ := exists_esc1_append_of_canonicalEscaped h
    have hshorter : tail.length < (a :: rest).length := by
      rw [heq, List.length_append]
      exact Nat.lt_add_of_pos_left (esc1_length_pos b)
    rw [heq] at h ⊢
    obtain ⟨x, rfl⟩ := exists_escape_of_canonicalEscaped ((canonicalEscaped_esc1_append b tail).mp h)
    exact ⟨b :: x, rfl⟩
termination_by y.length
decreasing_by exact hshorter

theorem exists_escape_iff (y : List Byte) : (∃ x, y = escape x) ↔ CanonicalEscaped y := by
  constructor
  · rintro ⟨x, rfl⟩
    exact canonicalEscaped_escape x
  · exact exists_escape_of_canonicalEscaped

theorem escape_unescape_iff (y : List Byte) : escape (unescape y) = y ↔ CanonicalEscaped y := by
  constructor
  · intro h
    rw [← h]
    exact canonicalEscaped_escape _
  · intro h
    obtain ⟨x, rfl⟩ := exists_escape_of_canonicalEscaped h
    rw [unescape_escape]

end Sys2Proof.Machine
end

section
/-! PROOFS. Unescaping byte by byte with a marker held (42_escape.md R92, R97 to R102). `upendFlush upend ++ data` is what is
still to be unescaped: the marker held, if any, and the bytes to come. -/

namespace Sys2Proof.Machine

open Sys2Proof.Claims

/-! ### The table of R97 -/

theorem upendStep_held_escOfSync : upendStep true escOfSync = (false, [syncByte]) := rfl
theorem upendStep_held_escOfEsc : upendStep true escOfEsc = (false, [escByte]) := rfl
theorem upendStep_held_escByte : upendStep true escByte = (true, [escByte]) := rfl
theorem upendStep_free_escByte : upendStep false escByte = (true, []) := rfl

theorem upendStep_held_of_ne {b : Byte} (hsync : b ≠ escOfSync) (hesc : b ≠ escOfEsc) (hmark : b ≠ escByte) :
    upendStep true b = (false, [escByte, b]) := by
  rw [upendStep, if_pos rfl, if_neg hsync, if_neg hesc, if_neg hmark]

theorem upendStep_free_of_ne {b : Byte} (hmark : b ≠ escByte) : upendStep false b = (false, [b]) := by
  rw [upendStep, if_neg Bool.false_ne_true, if_neg hmark]

/-! ### One byte at a time -/

/-- The key fact: a step of R97 emits what `unescape` gives up to the byte, and holds what it has not yet decided. -/
theorem unescape_upendFlush_cons (upend : Bool) (b : Byte) (rest : List Byte) :
    unescape (upendFlush upend ++ b :: rest) =
      (upendStep upend b).2 ++ unescape (upendFlush (upendStep upend b).1 ++ rest) := by
  rcases upendStep_cases upend b with ⟨rfl, rfl, h⟩ | ⟨rfl, rfl, h⟩ | ⟨rfl, rfl, h⟩ | ⟨rfl, hsync, hesc, hmark, h⟩ |
    ⟨rfl, rfl, h⟩ | ⟨rfl, hmark, h⟩ <;> rw [h]
  · exact unescape_syncPair rest
  · exact unescape_escPair rest
  · exact unescape_literalMarker (by decide) (by decide) rest
  · exact (unescape_literalMarker hsync hesc rest).trans (congrArg _ (unescape_cons_of_ne hmark rest))
  · rfl
  · exact unescape_cons_of_ne hmark rest

theorem unescape_upendFlush (upend : Bool) : unescape (upendFlush upend) = upendFlush upend := by
  cases upend <;> rfl

/-- The pass of R92 takes the same steps. -/
theorem unescapePass_cons (upend : Bool) (o : List Byte) (b : Byte) (rest : List Byte) :
    unescapePass upend o (b :: rest) = unescapePass (upendStep upend b).1 (o ++ (upendStep upend b).2) rest := by
  rcases upendStep_cases upend b with ⟨rfl, rfl, h⟩ | ⟨rfl, rfl, h⟩ | ⟨rfl, rfl, h⟩ | ⟨rfl, hsync, hesc, hmark, h⟩ |
    ⟨rfl, rfl, h⟩ | ⟨rfl, hmark, h⟩ <;> rw [h]
  · rfl
  · rfl
  · rfl
  · exact (if_neg hsync).trans ((if_neg hesc).trans (if_neg hmark))
  · exact congrArg (unescapePass true · rest) (List.append_nil o).symm
  · exact if_neg hmark

theorem unescapePass_eq (upend : Bool) (o data : List Byte) :
    unescapePass upend o data = o ++ unescape (upendFlush upend ++ data) := by
  induction data generalizing upend o with
  | nil =>
    rw [List.append_nil, unescape_upendFlush]
    cases upend
    · exact (List.append_nil o).symm
    · rfl
  | cons b rest ih => rw [unescapePass_cons, ih, unescape_upendFlush_cons, List.append_assoc]

/-! ### The operations in sequence -/

theorem outputOf_cons (r : Result) (rs : List Result) : outputOf (r :: rs) = r.out ++ outputOf rs := rfl

/-- ESC.DEC by the step of R97 it takes. -/
theorem exec_escDec_of_upendStep {s : State} {b : Byte} {upend : Bool} {out : List Byte}
    (h : upendStep s.upend b = (upend, out)) :
    exec (.escDec b) s = .next (State.deliver { s with upend := upend } (okOut out)) := by
  have hexec := exec_eq_deliver (.escDec b) s
  simp only [State.written, State.resultOf, h] at hexec
  exact hexec

/-- Writing to `UPEND` what it holds changes nothing. -/
theorem State.with_upend_eq_self {s : State} {upend : Bool} (h : s.upend = upend) : { s with upend := upend } = s := by
  subst h; rfl

/-- ESC.DEC of each byte and ESC.FLUSH emit in all the unescape of what was held and the bytes, and leave no marker held. -/
theorem execSeq_escDec_escFlush (data : List Byte) (s : State) :
    ∃ rs, execSeq (data.map .escDec ++ [.escFlush]) s = .next { s with upend := false, rsps := s.rsps ++ rs } ∧
      outputOf rs = unescape (upendFlush s.upend ++ data) := by
  induction data generalizing s with
  | nil =>
    refine ⟨[okResult .none (upendFlush s.upend)], execSeq_cons_of_exec (exec_eq_deliver .escFlush s) [], ?_⟩
    rw [List.append_nil, unescape_upendFlush]
    exact List.append_nil _
  | cons b data ih =>
    obtain ⟨rs, hrun, hout⟩ := ih ((s.written (.escDec b)).deliver (s.resultOf (.escDec b)))
    refine ⟨s.resultOf (.escDec b) :: rs, ?_, ?_⟩
    · rw [List.map_cons, List.cons_append, execSeq_cons_of_exec (exec_eq_deliver (.escDec b) s), hrun]
      simp [State.deliver, State.written]
    · rw [outputOf_cons, hout, unescape_upendFlush_cons]
      rfl

/-- ESC.ENC of each byte delivers the escape of each and changes no register. -/
theorem execSeq_escEnc (data : List Byte) (s : State) :
    execSeq (data.map .escEnc) s =
      .next { s with rsps := s.rsps ++ data.map fun b => okResult .none (esc1 b) } := by
  induction data generalizing s with
  | nil => simp
  | cons b data ih =>
    rw [List.map_cons, execSeq_cons_of_exec (exec_eq_deliver (.escEnc b) s), ih]
    simp [State.deliver, State.written, State.resultOf]

theorem outputOf_map_esc1 (data : List Byte) :
    outputOf (data.map fun b => okResult .none (esc1 b)) = escape data := by
  rw [outputOf, List.flatMap_map]
  rfl

end Sys2Proof.Machine
end

section
/-! PROOFS. Lengths under escaping, unescaping and framing (42_escape.md R103; 30_encoding.md R57). -/

namespace Sys2Proof.Machine

open Sys2Proof.Claims

/-! ### Escaping adds one byte for each marker and sync (42_escape.md R91) -/

/-- The bytes that escape to a pair (42_escape.md R90). -/
def needsEscape (b : Byte) : Bool := b == escByte || b == syncByte

theorem esc1_length (b : Byte) : (esc1 b).length = 1 + if needsEscape b then 1 else 0 := by
  rcases esc1_cases b with ⟨rfl, h⟩ | ⟨rfl, h⟩ | ⟨hesc, hsync, h⟩ <;> rw [h]
  · rfl
  · rfl
  · simp [needsEscape, hesc, hsync]

theorem escape_length (s : List Byte) : (escape s).length = s.length + s.countP needsEscape := by
  induction s with
  | nil => rfl
  | cons b s ih =>
    rw [escape_cons, List.length_append, esc1_length, ih, List.length_cons, List.countP_cons]
    omega

/-! ### Unescaping -/

/-- What a step of R97 emits and holds, against what it held and the byte it takes. -/
theorem upendStep_length (upend : Bool) (b : Byte) :
    (upendStep upend b).2.length + (upendFlush (upendStep upend b).1).length ≤ (upendFlush upend).length + 1 ∧
    (upendFlush upend).length + 1 ≤ 2 * (upendStep upend b).2.length + (upendFlush (upendStep upend b).1).length := by
  rcases upendStep_cases upend b with ⟨rfl, rfl, h⟩ | ⟨rfl, rfl, h⟩ | ⟨rfl, rfl, h⟩ | ⟨rfl, -, -, -, h⟩ |
    ⟨rfl, rfl, h⟩ | ⟨rfl, -, h⟩ <;> rw [h] <;> simp [upendFlush]

theorem unescape_upendFlush_length (upend : Bool) (data : List Byte) :
    (unescape (upendFlush upend ++ data)).length ≤ (upendFlush upend).length + data.length ∧
    (upendFlush upend).length + data.length ≤ 2 * (unescape (upendFlush upend ++ data)).length := by
  induction data generalizing upend with
  | nil =>
    rw [List.append_nil, unescape_upendFlush, List.length_nil]
    omega
  | cons b rest ih =>
    obtain ⟨hle, hge⟩ := ih (upendStep upend b).1
    obtain ⟨hstepLe, hstepGe⟩ := upendStep_length upend b
    rw [unescape_upendFlush_cons, List.length_append, List.length_cons]
    omega

/-! ### Frames -/

/-- The bytes of a frame that are escaped: TYPE, LEN, the payload and the CRC. -/
theorem frame_length (type : Byte) (payload : List Byte) :
    (frame type payload).length =
      5 + payload.length + (frameBody type payload ++ le16 (crc16 (frameBody type payload))).countP needsEscape := by
  rw [frame, List.length_cons, escape_length, List.length_append, le16_length, frameBody, List.length_cons,
    List.length_cons]
  omega

theorem frame_length_le (type : Byte) (payload : List Byte) :
    (frame type payload).length ≤ 9 + 2 * payload.length := by
  have hcount := List.countP_le_length (p := needsEscape)
    (l := frameBody type payload ++ le16 (crc16 (frameBody type payload)))
  rw [List.length_append, le16_length, frameBody, List.length_cons, List.length_cons] at hcount
  rw [frame_length, frameBody]
  omega

/-- A frame of 255 payload bytes has the LEN byte `FF`, which is not escaped (90_conflicts.md C12). -/
theorem frame_length_of_length_eq {payload : List Byte} (h : payload.length = 255) (type : Byte) :
    (frame type payload).length =
      260 + [type].countP needsEscape + payload.countP needsEscape +
        (le16 (crc16 (frameBody type payload))).countP needsEscape := by
  have hlen : needsEscape (BitVec.ofNat 8 payload.length) = false := by rw [h]; rfl
  rw [frame_length, List.countP_append, h]
  simp only [frameBody, List.countP_cons, hlen, List.countP_nil, Bool.false_eq_true, if_false]
  omega

theorem frame_length_le_518 (type : Byte) {payload : List Byte} (h : payload.length ≤ 255) :
    (frame type payload).length ≤ 518 := by
  rcases Nat.lt_or_eq_of_le h with hlt | heq
  · have := frame_length_le type payload
    omega
  · have htype := List.countP_le_length (p := needsEscape) (l := [type])
    have hpayload := List.countP_le_length (p := needsEscape) (l := payload)
    have hcrc := List.countP_le_length (p := needsEscape) (l := le16 (crc16 (frameBody type payload)))
    rw [List.length_singleton] at htype
    rw [le16_length] at hcrc
    rw [frame_length_of_length_eq heq]
    omega

/-- The payload of the longest frame (95_test_vectors.md, type `7E`): markers and syncs only, and its CRC is `7D7E`. -/
def longestPayload : List Byte :=
  List.replicate 237 syncByte ++ [0x7D, 0x7D, 0x7D, 0x7E, 0x7D, 0x7E, 0x7D, 0x7D] ++ List.replicate 10 syncByte

theorem longestPayload_length : longestPayload.length = 255 := by
  simp only [longestPayload, List.length_append, List.length_replicate, List.length_cons, List.length_nil]

theorem longestPayload_countP_needsEscape : longestPayload.countP needsEscape = 255 := by
  rw [← longestPayload_length, List.countP_eq_length]
  decide +kernel

/-- The loop of R80 goes on over a second part from the number the first part left. -/
theorem crc16Number_append (front back : List Byte) :
    crc16Number (front ++ back) = back.foldl (fun c b => crcByteNumber c b.toNat) (crc16Number front) :=
  List.foldl_append ..

/-- The loop, evaluated on numbers and in two parts, so that neither evaluation nests too deep. -/
theorem crc16_longestPayload : crc16 (frameBody syncByte longestPayload) = 0x7D7E := by
  have hparts : frameBody syncByte longestPayload = (0x7E :: 0xFF :: List.replicate 120 0x7E) ++
      (List.replicate 117 0x7E ++ [0x7D, 0x7D, 0x7D, 0x7E, 0x7D, 0x7E, 0x7D, 0x7D] ++ List.replicate 10 0x7E) := by
    decide +kernel
  have hfront : crc16Number (0x7E :: 0xFF :: List.replicate 120 0x7E) = 0x89CE := by decide +kernel
  rw [← ofNat_crc16Number, hparts, crc16Number_append, hfront]
  decide +kernel

theorem frame_longestPayload_length : (frame syncByte longestPayload).length = 518 := by
  rw [frame_length_of_length_eq longestPayload_length, longestPayload_countP_needsEscape, crc16_longestPayload]
  rfl

end Sys2Proof.Machine
end

section
/-! PROOFS. The statements about the ESC unit (42_escape.md). -/

namespace Sys2Proof.Proofs

open Sys2Proof.Machine

/-- Settles O29: `escape` gives canonical sequences, a canonical one is taken apart from the front (`exists_escape_iff`), and
`unescape` undoes `escape` (`escape_unescape_iff`). -/
theorem escapedSequencesAreTheCanonicalOnes : Obligations.EscapedSequencesAreTheCanonicalOnes := by
  unfold Obligations.EscapedSequencesAreTheCanonicalOnes
  exact fun y => ⟨exists_escape_iff y, escape_unescape_iff y⟩

/-- Settles O25: the per-byte map is the two replacements (`escape_eq_replaceByte`). -/
theorem escEncbIsTwoReplacements : Obligations.EscEncbIsTwoReplacements := by
  unfold Obligations.EscEncbIsTwoReplacements
  intro data s
  rw [← escape_eq_replaceByte]
  exact exec_eq_deliver (.escEncb data) s

/-- Settles O27: the pass takes the steps of R97, and so does `unescape` (`unescapePass_eq`). -/
theorem escDecbIsTheSinglePass : Obligations.EscDecbIsTheSinglePass := by
  unfold Obligations.EscDecbIsTheSinglePass
  intro data s
  rw [unescapePass_eq]
  exact exec_eq_deliver (.escDecb data) s

/-- Settles O28: the bytes emitted are `escape data`, which `unescape_escape` takes back. -/
theorem unescapeInvertsEscape : Obligations.UnescapeInvertsEscape := by
  unfold Obligations.UnescapeInvertsEscape
  intro data s
  have hdec := exec_eq_deliver (.escDecb (escape data)) s
  rw [State.resultOf, unescape_escape] at hdec
  exact ⟨escape data, exec_eq_deliver (.escEncb data) s, hdec⟩

/-- Settles O30: after ESC.CLR nothing is held, so the sequence emits `unescape data` (`execSeq_escDec_escFlush`); ESC.ENC of
each byte emits `escape data` (`execSeq_escEnc`). -/
theorem streamAndBufferFormsAgree : Obligations.StreamAndBufferFormsAgree := by
  unfold Obligations.StreamAndBufferFormsAgree
  intro data s
  constructor
  · obtain ⟨rs, hrun, hout⟩ := execSeq_escDec_escFlush data ((s.written .escClr).deliver (s.resultOf .escClr))
    have hall : outputOf (s.resultOf .escClr :: rs) = unescape data := by rw [outputOf_cons, hout]; rfl
    refine ⟨_, s.resultOf .escClr :: rs, (execSeq_cons_of_exec (exec_eq_deliver .escClr s) _).trans hrun, ?_, ?_,
      rfl, rfl, rfl, rfl, rfl⟩
    · rw [State.deliver_rsps, List.append_assoc, List.singleton_append]
      rfl
    · rw [hall]
      exact exec_eq_deliver (.escDecb data) s
  · refine ⟨_, _, execSeq_escEnc data s, rfl, ?_, rfl, rfl, rfl, rfl, rfl⟩
    rw [outputOf_map_esc1]
    exact exec_eq_deliver (.escEncb data) s

/-- Settles O47: `escape` adds a byte for each marker and sync (`escape_length`), a step of the streaming unescape emits and
holds at most what it takes and at least half of it (`unescape_upendFlush_length`), and the longest frame is reached by
`longestPayload`. -/
theorem escapeAndFrameSizes : Obligations.EscapeAndFrameSizes := by
  unfold Obligations.EscapeAndFrameSizes
  refine ⟨fun s => ?_, fun type payload h => ?_, syncByte, longestPayload, longestPayload_length,
    frame_longestPayload_length⟩
  · have hcount := List.countP_le_length (p := needsEscape) (l := s)
    obtain ⟨hle, hge⟩ : (unescape s).length ≤ 0 + s.length ∧ 0 + s.length ≤ 2 * (unescape s).length :=
      unescape_upendFlush_length false s
    rw [escape_length]
    omega
  · exact ⟨by rw [frame_length]; exact Nat.le_add_right _ _, frame_length_le type payload, frame_length_le_518 type h⟩

/-- Settles O24: the packet is the one `encode` writes, and `esc1` is the escape table. -/
theorem escEncEmitsTheEscapedByte : Obligations.EscEncEmitsTheEscapedByte := by
  unfold Obligations.EscEncEmitsTheEscapedByte
  intro b s
  have hexec := exec_eq_deliver (.escEnc b) s
  refine ⟨decode_encode (i := .escEnc b) rfl, ?_, ?_, fun hesc hsync => ?_⟩
  · rintro rfl
    exact hexec
  · rintro rfl
    exact hexec
  · rw [State.resultOf, esc1_eq_singleton hesc hsync] at hexec
    exact hexec

/-- Settles O26: ESC.DEC by the table of R97 (`exec_escDec_of_upendStep`); ESC.FLUSH and ESC.CLR by their register writes and
results (`exec_eq_deliver`). -/
theorem streamingUnescapeStepByStep : Obligations.StreamingUnescapeStepByStep := by
  unfold Obligations.StreamingUnescapeStepByStep
  intro b s
  have hflush := exec_eq_deliver .escFlush s
  refine ⟨decode_encode (i := .escDec b) rfl, decode_encode (i := .escFlush) rfl, decode_encode (i := .escClr) rfl,
    fun hu hb => ?_, fun hu hb => ?_, fun hu hb => ?_, fun hu hsync hesc hmark => ?_, fun hu hb => ?_,
    fun hu hmark => ?_, fun hu => ?_, fun hu => ?_, exec_eq_deliver .escClr s⟩
  · exact exec_escDec_of_upendStep (by rw [hu, hb]; exact upendStep_held_escOfSync)
  · exact exec_escDec_of_upendStep (by rw [hu, hb]; exact upendStep_held_escOfEsc)
  · have hstep : upendStep s.upend b = (true, [0x7D]) := by rw [hu, hb]; exact upendStep_held_escByte
    rw [exec_escDec_of_upendStep hstep, State.with_upend_eq_self hu]
  · exact exec_escDec_of_upendStep (by rw [hu]; exact upendStep_held_of_ne hsync hesc hmark)
  · exact exec_escDec_of_upendStep (by rw [hu, hb]; exact upendStep_free_escByte)
  · have hstep : upendStep s.upend b = (false, [b]) := by rw [hu]; exact upendStep_free_of_ne hmark
    rw [exec_escDec_of_upendStep hstep, State.with_upend_eq_self hu]
  · rw [State.resultOf, hu] at hflush
    exact hflush
  · rw [State.resultOf, hu, State.written, State.with_upend_eq_self hu] at hflush
    exact hflush

end Sys2Proof.Proofs
end

section
/-! PROOFS. FRX.BYTE by the kind of byte it takes (43_frame_receiver.md R106 to R114): a sync byte, a byte outside a frame, a
marker, a data byte. -/

namespace Sys2Proof.Machine

open Sys2Proof.Claims

/-! ### Before the data byte -/

theorem frxByte_syncByte (variant : EscEsc) (f : Frx) : frxByte variant f syncByte = (f.start, frxOk) := if_pos rfl

theorem frxByte_waitSync {f : Frx} {b : Byte} (variant : EscEsc) (hb : b ≠ syncByte) (hst : f.st = .waitSync) :
    frxByte variant f b = (f, frxOk) := by
  rw [frxByte, if_neg hb, if_pos hst]

/-- A `7D` inside a frame is a marker unless an escape is pending and the variant is `DATA` (43_frame_receiver.md R124). -/
theorem frxByte_escByte {variant : EscEsc} {f : Frx} (hst : f.st ≠ .waitSync) (h : f.escf = false ∨ variant = .mark) :
    frxByte variant f escByte = ({ f with escf := true }, frxOk) := by
  have hstep : escfStep variant f.escf escByte = (true, none) := by
    rcases h with h | rfl
    · simp [escfStep, h]
    · simp [escfStep]
  rw [frxByte, if_neg (by decide), if_neg hst, hstep]

/-! ### The data byte -/

/-- `TakenAsData` on the FRX registers alone: the wire byte `b` is taken as the data byte `d`. -/
def Frx.ReadsAs (variant : EscEsc) (f : Frx) (b d : Byte) : Prop :=
  b ≠ syncByte ∧ f.st ≠ .waitSync ∧
    ((f.escf = false ∧ b ≠ escByte ∧ d = b) ∨
      (f.escf = true ∧ (b ≠ escByte ∨ variant = .data) ∧ d = b ^^^ escXor))

theorem takenAsData_iff (s : State) (b d : Byte) : TakenAsData s b d ↔ s.frx.ReadsAs s.cfg.escEsc b d := Iff.rfl

/-- FRX with the pending escape, if there is one, used up (43_frame_receiver.md R109). -/
def Frx.escapeUsed (f : Frx) : Frx := { f with escf := false }

theorem Frx.escapeUsed_eq_self {f : Frx} (h : f.escf = false) : f.escapeUsed = f := by
  rw [Frx.escapeUsed, ← h]

theorem frxByte_of_readsAs {variant : EscEsc} {f : Frx} {b d : Byte} (h : f.ReadsAs variant b d) :
    frxByte variant f b = frxData f.escapeUsed d := by
  obtain ⟨hsync, hst, hd⟩ := h
  have hstep : escfStep variant f.escf b = (false, some d) := by
    rcases hd with ⟨hescf, hb, rfl⟩ | ⟨hescf, hb | rfl, rfl⟩
    · simp [escfStep, hescf, hb]
    · simp [escfStep, hescf, hb]
    · simp [escfStep, hescf]
  rw [frxByte, if_neg hsync, if_neg hst, hstep]
  rfl

theorem frxData_readType {f : Frx} (h : f.st = .readType) (d : Byte) :
    frxData f d = ({ f with type := d, xcrc := crcByte f.xcrc d, st := .readLen }, frxOk) := by
  simp only [frxData, h]

theorem frxData_readLen_zero {f : Frx} (h : f.st = .readLen) :
    frxData f 0 = ({ f with len := 0, xcrc := crcByte f.xcrc 0, st := .readCrcLo }, frxOk) := by
  simp only [frxData, h, if_true]

theorem frxData_readLen_of_ne {f : Frx} (h : f.st = .readLen) {d : Byte} (hd : d ≠ 0) :
    frxData f d = ({ f with len := d, xcrc := crcByte f.xcrc d, st := .readPayload }, frxOk) := by
  simp only [frxData, h, if_neg hd]

/-- The payload byte that makes the payload `LEN` bytes long. -/
theorem frxData_readPayload_last {f : Frx} (h : f.st = .readPayload) (hlen : f.pay.length + 1 = f.len.toNat) (d : Byte) :
    frxData f d = ({ f with pay := f.pay ++ [d], xcrc := crcByte f.xcrc d, st := .readCrcLo }, frxOk) := by
  simp only [frxData, h, List.length_append, List.length_singleton, if_pos hlen]

theorem frxData_readPayload_of_ne {f : Frx} (h : f.st = .readPayload) (hlen : f.pay.length + 1 ≠ f.len.toNat) (d : Byte) :
    frxData f d = ({ f with pay := f.pay ++ [d], xcrc := crcByte f.xcrc d }, frxOk) := by
  simp only [frxData, h, List.length_append, List.length_singleton, if_neg hlen]

theorem frxData_readCrcLo {f : Frx} (h : f.st = .readCrcLo) (d : Byte) :
    frxData f d = ({ f with rcrc := rcrcShift f.rcrc d, st := .readCrcHi }, frxOk) := by
  simp only [frxData, h]

/-- The result of the high CRC byte (43_frame_receiver.md R114). -/
def Frx.verdict (f : Frx) (d : Byte) : Result :=
  if rcrcShift f.rcrc d = f.xcrc then okResult (.msg f.type f.pay) [] else raise .checksumError

theorem frxData_eq_verdict {f : Frx} (h : f.st = .readCrcHi) (d : Byte) : frxData f d = (Frx.reset, f.verdict d) :=
  Prod.ext (frxData_readCrcHi h).1 (frxData_readCrcHi h).2

/-- The received CRC as a number: the byte shifted in is its high byte (10_state.md R28). -/
theorem rcrcShift_toNat (rcrc : Word16) (d : Byte) : (rcrcShift rcrc d).toNat = d.toNat * 256 + rcrc.toNat / 256 := by
  have hlow : rcrc.toNat >>> 8 < 2 ^ 8 := by rw [Nat.shiftRight_eq_div_pow]; omega
  rw [rcrcShift, BitVec.toNat_or, byte_high_toNat, BitVec.toNat_ushiftRight, Nat.mul_comm,
    ← Nat.two_pow_add_eq_or_of_lt hlow, Nat.shiftRight_eq_div_pow]
  omega

theorem rcrcShift_eq_iff (rcrc xcrc : Word16) (d : Byte) :
    rcrcShift rcrc d = xcrc ↔ d.toNat * 256 + rcrc.toNat / 256 = xcrc.toNat := by
  rw [← rcrcShift_toNat, BitVec.toNat_inj]

theorem Frx.verdict_of_match {f : Frx} {d : Byte} (h : d.toNat * 256 + f.rcrc.toNat / 256 = f.xcrc.toNat) :
    f.verdict d = okRes (.msg f.type f.pay) := if_pos ((rcrcShift_eq_iff ..).mpr h)

theorem Frx.verdict_of_mismatch {f : Frx} {d : Byte} (h : d.toNat * 256 + f.rcrc.toNat / 256 ≠ f.xcrc.toNat) :
    f.verdict d = raised .checksumError := if_neg (mt (rcrcShift_eq_iff ..).mp h)

@[simp] theorem Frx.escapeUsed_verdict (f : Frx) (d : Byte) : f.escapeUsed.verdict d = f.verdict d := rfl

/-- FRX.BYTE has an outcome only on a data byte in `READ_CRC_HI`, the one that ends the frame (43_frame_receiver.md R122). -/
theorem readCrcHi_of_frxByte_ne_frxOk {variant : EscEsc} {f : Frx} {b : Byte} (h : (frxByte variant f b).2 ≠ frxOk) :
    f.st = .readCrcHi ∧ ∃ d, f.ReadsAs variant b d ∧ frxByte variant f b = (Frx.reset, f.verdict d) := by
  rcases frxByte_cases variant f b with ⟨-, heq⟩ | ⟨-, -, heq⟩ | ⟨-, -, -, heq⟩ | ⟨d, hb, hst, hd, heq⟩
  · exact absurd (congrArg Prod.snd heq) h
  · exact absurd (congrArg Prod.snd heq) h
  · exact absurd (congrArg Prod.snd heq) h
  · have hhi : f.st = .readCrcHi := by
      by_contra hne
      exact h ((congrArg Prod.snd heq).trans (frxData_result hne))
    exact ⟨hhi, d, ⟨hb, hst, hd.symm⟩, heq.trans (frxData_eq_verdict (f := f.escapeUsed) hhi d)⟩

/-! ### The operation -/

/-- FRX.BYTE by what the byte does to the FRX registers. -/
theorem exec_frxByte_of_eq {s : State} {b : Byte} {f : Frx} {r : Result} (h : frxByte s.cfg.escEsc s.frx b = (f, r)) :
    exec (.frxByte b) s = .next (State.deliver { s with frx := f } r) := by
  have hexec := exec_eq_deliver (.frxByte b) s
  simp only [State.written, State.resultOf, h] at hexec
  exact hexec

/-- FRX.BYTE on a data byte, by the field the byte is; the pending escape is used up. -/
theorem exec_frxByte_of_takenAsData {s : State} {b d : Byte} {f : Frx} {r : Result} (h : TakenAsData s b d)
    (hdata : frxData s.frx.escapeUsed d = (f, r)) :
    exec (.frxByte b) s = .next (State.deliver { s with frx := f } r) :=
  exec_frxByte_of_eq ((frxByte_of_readsAs ((takenAsData_iff s b d).mp h)).trans hdata)

end Sys2Proof.Machine
end

section
/-! PROOFS. A sequence of wire bytes on the FRX registers: what FRX.FEED does to them, and the part of it that no outcome
interrupts. -/

namespace Sys2Proof.Machine

/-- The FRX registers after FRX.BYTE of each byte in order, and the results. -/
def frxRun (variant : EscEsc) : List Byte → Frx → Frx × List Result
  | [], f => (f, [])
  | b :: bs, f =>
    ((frxRun variant bs (frxByte variant f b).1).1,
      (frxByte variant f b).2 :: (frxRun variant bs (frxByte variant f b).1).2)

@[simp] theorem frxRun_nil (variant : EscEsc) (f : Frx) : frxRun variant [] f = (f, []) := rfl

theorem frxRun_cons {variant : EscEsc} {b : Byte} {bs : List Byte} {f g h : Frx} {r : Result} {rs : List Result}
    (hb : frxByte variant f b = (g, r)) (hbs : frxRun variant bs g = (h, rs)) :
    frxRun variant (b :: bs) f = (h, r :: rs) := by
  simp only [frxRun, hb, hbs]

theorem frxRun_append {variant : EscEsc} {as bs : List Byte} {f g h : Frx} {rs rs' : List Result}
    (has : frxRun variant as f = (g, rs)) (hbs : frxRun variant bs g = (h, rs')) :
    frxRun variant (as ++ bs) f = (h, rs ++ rs') := by
  induction as generalizing f rs with
  | nil =>
    obtain ⟨rfl, rfl⟩ := Prod.mk.inj has
    exact hbs
  | cons a as ih =>
    obtain ⟨hlast, rfl⟩ := Prod.mk.inj has
    exact frxRun_cons rfl (ih (Prod.ext hlast rfl))

theorem frxRun_results_length (variant : EscEsc) (bs : List Byte) (f : Frx) :
    (frxRun variant bs f).2.length = bs.length := by
  induction bs generalizing f with
  | nil => rfl
  | cons b bs ih => exact congrArg (· + 1) (ih _)

/-- FRX.FEED runs the bytes through the FRX registers, delivers one result for each and changes nothing else. -/
theorem execSeq_frxFeed (bs : List Byte) (s : State) :
    execSeq (frxFeed bs) s = .next { s with
      frx := (frxRun s.cfg.escEsc bs s.frx).1
      rsps := s.rsps ++ (frxRun s.cfg.escEsc bs s.frx).2 } := by
  induction bs generalizing s with
  | nil => simp [frxFeed]
  | cons b bs ih =>
    rw [frxFeed, List.map_cons, execSeq_cons_of_exec (exec_eq_deliver (.frxByte b) s), ← frxFeed, ih]
    simp [State.written, State.resultOf, State.deliver, frxRun]

/-- FRX takes the bytes from `f` to `g`, and none of them has an outcome. -/
def TakesSilently (variant : EscEsc) (bs : List Byte) (f g : Frx) : Prop :=
  frxRun variant bs f = (g, List.replicate bs.length frxOk)

theorem takesSilently_nil (variant : EscEsc) (f : Frx) : TakesSilently variant [] f f := rfl

theorem takesSilently_singleton {variant : EscEsc} {b : Byte} {f g : Frx} (h : frxByte variant f b = (g, frxOk)) :
    TakesSilently variant [b] f g := frxRun_cons h rfl

theorem TakesSilently.append {variant : EscEsc} {as bs : List Byte} {f g h : Frx} (has : TakesSilently variant as f g)
    (hbs : TakesSilently variant bs g h) : TakesSilently variant (as ++ bs) f h := by
  have hrun := frxRun_append has hbs
  rwa [← List.replicate_add, ← List.length_append] at hrun

/-! ### Escaped bytes -/

/-- Escape removal undoes `esc1`: its last byte is taken as the data byte, whatever the variant, and the marker before it has no
outcome (42_escape.md R90; 43_frame_receiver.md R109). -/
theorem frxRun_esc1 (variant : EscEsc) {f : Frx} (hst : f.st ≠ .waitSync) (hescf : f.escf = false) (d : Byte) :
    frxRun variant (esc1 d) f =
      ((frxData f d).1, List.replicate ((esc1 d).length - 1) frxOk ++ [(frxData f d).2]) := by
  have hpair {b : Byte} (hsync : b ≠ syncByte) (hesc : b ≠ escByte) :
      frxRun variant [escByte, b] f = ((frxData f (b ^^^ escXor)).1, [frxOk, (frxData f (b ^^^ escXor)).2]) := by
    have hdata : frxByte variant { f with escf := true } b = frxData f.escapeUsed (b ^^^ escXor) :=
      frxByte_of_readsAs ⟨hsync, hst, .inr ⟨rfl, .inl hesc, rfl⟩⟩
    rw [Frx.escapeUsed_eq_self hescf] at hdata
    exact frxRun_cons (frxByte_escByte hst (.inl hescf)) (frxRun_cons hdata rfl)
  rcases esc1_cases d with ⟨rfl, h⟩ | ⟨rfl, h⟩ | ⟨hesc, hsync, h⟩ <;> rw [h]
  · exact hpair (by decide) (by decide)
  · exact hpair (by decide) (by decide)
  · have hdata := frxByte_of_readsAs (variant := variant) ⟨hsync, hst, .inl ⟨hescf, hesc, rfl⟩⟩
    rw [Frx.escapeUsed_eq_self hescf] at hdata
    exact frxRun_cons hdata rfl

/-- The escaped high CRC byte ends the frame, on its last wire byte. -/
theorem frxRun_esc1_readCrcHi (variant : EscEsc) {f : Frx} (hst : f.st = .readCrcHi) (hescf : f.escf = false) (d : Byte) :
    frxRun variant (esc1 d) f = (Frx.reset, List.replicate ((esc1 d).length - 1) frxOk ++ [f.verdict d]) := by
  rw [frxRun_esc1 variant (by simp [hst]) hescf, frxData_eq_verdict hst]

/-- An escaped byte that is not the high CRC byte is taken with no outcome. -/
theorem takesSilently_esc1 {variant : EscEsc} {f g : Frx} {d : Byte} (hst : f.st ≠ .waitSync) (hescf : f.escf = false)
    (hdata : frxData f d = (g, frxOk)) : TakesSilently variant (esc1 d) f g := by
  have hrun := frxRun_esc1 variant hst hescf d
  rwa [hdata, ← List.replicate_succ', Nat.sub_add_cancel (esc1_length_pos d)] at hrun

end Sys2Proof.Machine
end

section
/-! PROOFS. A whole frame fed to FRX (43_frame_receiver.md R119 to R121): the receiver goes through the fields of the frame and
ends idle, with the message or `ChecksumError`. -/

namespace Sys2Proof.Machine

open Sys2Proof.Claims

/-- FRX inside a frame whose type, length and first payload bytes have come, with no escape pending. -/
def Frx.holding (st : FrxState) (type len : Byte) (pay : List Byte) (rcrc : Word16) : Frx :=
  ⟨st, false, type, len, pay, rcrc, crc16 ([type, len] ++ pay)⟩

@[simp] theorem Frx.holding_st (st : FrxState) (type len : Byte) (pay : List Byte) (rcrc : Word16) :
    (Frx.holding st type len pay rcrc).st = st := rfl

/-- The length byte of a payload that fits. -/
theorem lengthByte_toNat {payload : List Byte} (h : payload.length ≤ 255) :
    (BitVec.ofNat 8 payload.length).toNat = payload.length := by
  rw [BitVec.toNat_ofNat]
  omega

/-- The last payload byte: FRX goes on to the CRC. -/
theorem frxData_holding_last {type len : Byte} {pay : List Byte} (hlen : pay.length + 1 = len.toNat) (d : Byte) :
    frxData (.holding .readPayload type len pay 0) d = (.holding .readCrcLo type len (pay ++ [d]) 0, frxOk) := by
  rw [frxData_readPayload_last rfl hlen]
  simp only [Frx.holding, ← crc16_concat, List.append_assoc]

/-- Any payload byte before the last: FRX stays in the payload. -/
theorem frxData_holding_of_ne {type len : Byte} {pay : List Byte} (hlen : pay.length + 1 ≠ len.toNat) (d : Byte) :
    frxData (.holding .readPayload type len pay 0) d = (.holding .readPayload type len (pay ++ [d]) 0, frxOk) := by
  rw [frxData_readPayload_of_ne rfl hlen]
  simp only [Frx.holding, ← crc16_concat, List.append_assoc]

/-- The rest of the payload, by induction on it: each byte but the last leaves FRX in `READ_PAYLOAD`. -/
theorem takesSilently_payload (variant : EscEsc) {type len : Byte} (d : Byte) (front back : List Byte)
    (hlen : front.length + (d :: back).length = len.toNat) :
    TakesSilently variant (escape (d :: back)) (.holding .readPayload type len front 0)
      (.holding .readCrcLo type len (front ++ d :: back) 0) := by
  induction back generalizing front d with
  | nil =>
    rw [escape_cons, escape_nil, List.append_nil]
    exact takesSilently_esc1 (by simp) rfl (frxData_holding_last hlen d)
  | cons e back ih =>
    rw [List.length_cons, List.length_cons] at hlen
    have hfirst : TakesSilently variant (esc1 d) (.holding .readPayload type len front 0)
        (.holding .readPayload type len (front ++ [d]) 0) :=
      takesSilently_esc1 (by simp) rfl (frxData_holding_of_ne (by omega) d)
    have hrest := ih e (front ++ [d]) (by simpa [Nat.add_assoc, Nat.add_comm 1] using hlen)
    rw [List.append_assoc, List.singleton_append] at hrest
    exact hfirst.append hrest

/-- The body of a frame takes FRX from the start of a frame to `READ_CRC_LO`, with the running CRC of the body. -/
theorem takesSilently_body (variant : EscEsc) (f : Frx) (type : Byte) {payload : List Byte} (h : payload.length ≤ 255) :
    TakesSilently variant (escape (body type payload)) f.start
      (.holding .readCrcLo type (BitVec.ofNat 8 payload.length) payload 0) := by
  have htype : TakesSilently variant (esc1 type) f.start ⟨.readLen, false, type, 0, [], 0, crc16 [type]⟩ :=
    takesSilently_esc1 (by simp) rfl (frxData_readType rfl type)
  refine htype.append ?_
  cases payload with
  | nil => exact (takesSilently_esc1 (by simp) rfl (frxData_readLen_zero rfl)).append (takesSilently_nil ..)
  | cons d back =>
    have hlen := lengthByte_toNat h
    have hne : BitVec.ofNat 8 (d :: back).length ≠ 0 := by
      intro hzero
      rw [hzero] at hlen
      exact absurd hlen (by simp)
    exact (takesSilently_esc1 (by simp) rfl (frxData_readLen_of_ne rfl hne)).append
      (takesSilently_payload variant d [] back (by rw [hlen, List.length_nil, Nat.zero_add]))

/-- The two CRC bytes, low byte first, stand in `RCRC` as the value they carry (10_state.md R28). -/
theorem rcrcShift_crcBytes (c : Word16) :
    rcrcShift (rcrcShift 0 (BitVec.ofNat 8 c.toNat)) (BitVec.ofNat 8 (c.toNat / 256)) = c := by
  have hc := c.isLt
  rw [rcrcShift_eq_iff, rcrcShift_toNat]
  simp only [BitVec.toNat_ofNat, BitVec.ofNat_eq_ofNat]
  omega

/-- A frame whose CRC bytes carry `c`, without its last data byte. -/
def wireBeforeLast (type : Byte) (payload : List Byte) (c : Word16) : List Byte :=
  syncByte :: (escape (body type payload) ++ esc1 (BitVec.ofNat 8 c.toNat))

theorem wireWithCrc_eq_append (type : Byte) (payload : List Byte) (c : Word16) :
    wireWithCrc type payload c = wireBeforeLast type payload c ++ esc1 (BitVec.ofNat 8 (c.toNat / 256)) := by
  simp [wireWithCrc, wireBeforeLast, escape_append, crcBytes, syncByte]

/-- Whatever FRX held, a frame up to the low CRC byte leaves it in `READ_CRC_HI` with the frame's fields. -/
theorem takesSilently_wireBeforeLast (variant : EscEsc) (f : Frx) (type : Byte) {payload : List Byte}
    (h : payload.length ≤ 255) (c : Word16) :
    TakesSilently variant (wireBeforeLast type payload c) f
      (.holding .readCrcHi type (BitVec.ofNat 8 payload.length) payload (rcrcShift 0 (BitVec.ofNat 8 c.toNat))) :=
  (takesSilently_singleton (frxByte_syncByte variant f)).append
    ((takesSilently_body variant f type h).append (takesSilently_esc1 (by simp) rfl (frxData_readCrcLo rfl _)))

/-- How a frame whose CRC bytes carry `c` ends (43_frame_receiver.md R114). -/
def frameVerdict (type : Byte) (payload : List Byte) (c : Word16) : Result :=
  if c = crc16 (body type payload) then okResult (.msg type payload) [] else raise .checksumError

theorem verdict_holding_crcBytes (type : Byte) (payload : List Byte) (c : Word16) :
    (Frx.holding .readCrcHi type (BitVec.ofNat 8 payload.length) payload
      (rcrcShift 0 (BitVec.ofNat 8 c.toNat))).verdict (BitVec.ofNat 8 (c.toNat / 256)) =
      frameVerdict type payload c := by
  simp only [Frx.verdict, Frx.holding, rcrcShift_crcBytes]
  rfl

/-- A frame fed to FRX in any state and under any variant: only its last byte has an outcome, and FRX ends idle. -/
theorem frxRun_wireWithCrc (variant : EscEsc) (f : Frx) (type : Byte) {payload : List Byte} (h : payload.length ≤ 255)
    (c : Word16) :
    frxRun variant (wireWithCrc type payload c) f =
      (Frx.reset, List.replicate ((wireWithCrc type payload c).length - 1) frxOk ++ [frameVerdict type payload c]) := by
  have hrun := frxRun_append (takesSilently_wireBeforeLast variant f type h c)
    (frxRun_esc1_readCrcHi variant rfl rfl (BitVec.ofNat 8 (c.toNat / 256)))
  rw [verdict_holding_crcBytes, ← List.append_assoc, ← List.replicate_add,
    ← Nat.add_sub_assoc (esc1_length_pos _), ← List.length_append, ← wireWithCrc_eq_append] at hrun
  exact hrun

/-- FRX.FEED of a frame, from any state. -/
theorem execSeq_frxFeed_wireWithCrc (type : Byte) {payload : List Byte} (h : payload.length ≤ 255) (c : Word16)
    (s : State) :
    execSeq (frxFeed (wireWithCrc type payload c)) s =
      .next (afterFrame s (wireWithCrc type payload c).length (frameVerdict type payload c)) := by
  rw [execSeq_frxFeed, frxRun_wireWithCrc s.cfg.escEsc s.frx type h c, ← List.append_assoc]
  rfl

/-! ### Frames with the right CRC and with a wrong one -/

theorem frameVerdict_crc16 (type : Byte) (payload : List Byte) :
    frameVerdict type payload (crc16 (body type payload)) = okRes (.msg type payload) := if_pos rfl

theorem frameVerdict_of_ne {type : Byte} {payload : List Byte} {c : Word16} (h : c ≠ crc16 (body type payload)) :
    frameVerdict type payload c = raised .checksumError := if_neg h

theorem le16_eq_crcBytes (c : Word16) : le16 c = crcBytes c := by
  simp only [le16, crcBytes, List.cons.injEq, and_true]
  constructor
  · apply BitVec.eq_of_toNat_eq
    simp [BitVec.extractLsb'_toNat]
  · apply BitVec.eq_of_toNat_eq
    simp [BitVec.extractLsb'_toNat, Nat.shiftRight_eq_div_pow]

/-- The frame FTX.SEND emits carries the CRC of its body (44_frame_transmitter.md R130). -/
theorem frame_eq_wireWithCrc (type : Byte) (payload : List Byte) :
    frame type payload = wireWithCrc type payload (crc16 (body type payload)) := by
  rw [frame, le16_eq_crcBytes]
  rfl

theorem execSeq_frxFeed_frame (type : Byte) {payload : List Byte} (h : payload.length ≤ 255) (s : State) :
    execSeq (frxFeed (frame type payload)) s =
      .next (afterFrame s (frame type payload).length (okRes (.msg type payload))) := by
  rw [frame_eq_wireWithCrc, execSeq_frxFeed_wireWithCrc type h, frameVerdict_crc16]

/-- A sequence in two parts, the first of which reaches `t`. -/
theorem execSeq_append_of_execSeq {is js : List Instr} {s t : State} (h : execSeq is s = .next t) :
    execSeq (is ++ js) s = execSeq js t := by
  induction is generalizing s with
  | nil =>
    cases h
    rfl
  | cons i is ih =>
    have hi := exec_eq_deliver i s
    rw [execSeq_cons_of_exec hi] at h
    rw [List.cons_append, execSeq_cons_of_exec hi, ih h]

/-- Replacing the type or one payload byte changes the CRC of the body, whose length byte stays (41_crc.md R86). -/
theorem crc16_body_ne_of_damage {type type' : Byte} {payload payload' : List Byte}
    (h : (type' ≠ type ∧ payload' = payload) ∨
      (type' = type ∧ ∃ before x y after, x ≠ y ∧ payload = before ++ x :: after ∧ payload' = before ++ y :: after)) :
    payload'.length = payload.length ∧ crc16 (body type payload) ≠ crc16 (body type' payload') := by
  rcases h with ⟨htype, rfl⟩ | ⟨rfl, before, x, y, after, hxy, rfl, rfl⟩
  · exact ⟨rfl, crc16_ne_of_byte_ne [] _ htype.symm⟩
  · have hlen : (before ++ y :: after).length = (before ++ x :: after).length := by simp
    refine ⟨hlen, ?_⟩
    rw [body, body, hlen, ← List.append_assoc, ← List.append_assoc]
    exact crc16_ne_of_byte_ne _ _ hxy

end Sys2Proof.Machine
end

section
/-! PROOFS. The two variants of `P_ESC_ESC` (43_frame_receiver.md R124): they part only on a `7D` with an escape pending, and an
escape is pending only right after a `7D`. -/

namespace Sys2Proof.Machine

theorem escfStep_variant_congr {escf : Bool} {b : Byte} (h : escf = false ∨ b ≠ escByte) (v v' : EscEsc) :
    escfStep v escf b = escfStep v' escf b := by
  by_cases hb : b = escByte
  · obtain rfl := h.resolve_right (not_not_intro hb)
    simp [escfStep, hb]
  · simp [escfStep, hb]

theorem frxByte_variant_congr {f : Frx} {b : Byte} (h : f.escf = false ∨ b ≠ escByte) (v v' : EscEsc) :
    frxByte v f b = frxByte v' f b := by
  rw [frxByte, frxByte, escfStep_variant_congr h v v']

/-- A data byte leaves no escape pending. -/
theorem frxData_escf_eq_false {f : Frx} (h : f.escf = false) (d : Byte) : (frxData f d).1.escf = false := by
  by_cases hst : f.st = .readCrcHi
  · rw [(frxData_readCrcHi hst).1]
    rfl
  · rw [frxData_escf hst, h]

/-- An escape is pending inside a frame only. -/
def Frx.EscapeInFrame (f : Frx) : Prop := f.escf = true → f.st ≠ .waitSync

/-- After a byte an escape is pending only if that byte was a marker, inside a frame. -/
theorem eq_escByte_of_frxByte_escf {variant : EscEsc} {f : Frx} {b : Byte} (hf : f.EscapeInFrame)
    (h : (frxByte variant f b).1.escf = true) : b = escByte ∧ (frxByte variant f b).1.st ≠ .waitSync := by
  rcases frxByte_cases variant f b with ⟨-, heq⟩ | ⟨-, hst, heq⟩ | ⟨hb, hst, -, heq⟩ | ⟨d, -, -, -, heq⟩ <;>
    rw [heq] at h ⊢
  · exact absurd h (by simp)
  · exact absurd hst (hf h)
  · exact ⟨hb, hst⟩
  · rw [frxData_escf_eq_false rfl] at h
    exact absurd h Bool.false_ne_true

/-- No `7D` of the stream is followed by a `7D`. -/
def NoTwoMarkers (wire : List Byte) : Prop := ¬∃ before after, wire = before ++ escByte :: escByte :: after

theorem NoTwoMarkers.tail {b : Byte} {wire : List Byte} (h : NoTwoMarkers (b :: wire)) : NoTwoMarkers wire := by
  rintro ⟨before, after, rfl⟩
  exact h ⟨b :: before, after, rfl⟩

theorem NoTwoMarkers.head_tail_ne {wire : List Byte} (h : NoTwoMarkers (escByte :: wire)) :
    wire.head? ≠ some escByte := by
  intro hhead
  obtain ⟨after, rfl⟩ := List.head?_eq_some_iff.mp hhead
  exact h ⟨[], after, rfl⟩

/-- On a stream without two markers in a row the variants run alike: where an escape is pending, the next byte is no marker. -/
theorem frxRun_variant_congr (v v' : EscEsc) {wire : List Byte} {f : Frx} (hwire : NoTwoMarkers wire)
    (hf : f.EscapeInFrame) (hhead : f.escf = true → wire.head? ≠ some escByte) :
    frxRun v wire f = frxRun v' wire f := by
  induction wire generalizing f with
  | nil => rfl
  | cons b wire ih =>
    have hsame : frxByte v f b = frxByte v' f b := by
      refine frxByte_variant_congr ?_ v v'
      cases hescf : f.escf with
      | false => exact .inl rfl
      | true => exact .inr fun hb => hhead hescf (congrArg some hb)
    have hrest : frxRun v wire (frxByte v f b).1 = frxRun v' wire (frxByte v f b).1 := by
      refine ih hwire.tail (fun h => (eq_escByte_of_frxByte_escf hf h).2) fun h => ?_
      obtain ⟨rfl, -⟩ := eq_escByte_of_frxByte_escf hf h
      exact hwire.head_tail_ne
    rw [frxRun, frxRun, ← hsame, hrest]

end Sys2Proof.Machine
end

section
/-! PROOFS. The statements about the FRX unit (43_frame_receiver.md). -/

namespace Sys2Proof.Proofs

open Sys2Proof.Machine Sys2Proof.Claims

/-- Settles O39: FTX.SEND emits `frame type payload`, and FRX takes it from any state (`execSeq_frxFeed_frame`). -/
theorem frameRoundTrip : Obligations.FrameRoundTrip := by
  unfold Obligations.FrameRoundTrip
  intro type payload s h
  have hsend := exec_eq_deliver (.ftxSend type payload) s
  rw [State.resultOf, if_neg (show ¬payload.length > maxPayload from Nat.not_lt.mpr h)] at hsend
  exact ⟨frame type payload, hsend, execSeq_frxFeed_frame type h⟩

/-- Settles O42: the noise leaves some FRX state and one result for each byte (`execSeq_frxFeed`), and the frame is received from
any state. -/
theorem frameAfterNoiseIsReceived : Obligations.FrameAfterNoiseIsReceived := by
  unfold Obligations.FrameAfterNoiseIsReceived
  intro noise type payload s h
  refine ⟨(frxRun s.cfg.escEsc noise s.frx).2, frxRun_results_length .., ?_⟩
  rw [frxFeed, List.map_append, ← frxFeed, ← frxFeed, execSeq_append_of_execSeq (execSeq_frxFeed noise s),
    execSeq_frxFeed_frame type h]
  rfl

/-- Settles O35: the data byte shifts into the received CRC, here on numbers (`rcrcShift_toNat`), and in `READ_CRC_HI` decides the
frame's verdict. -/
theorem crcBytesEmitOrReject : Obligations.CrcBytesEmitOrReject := by
  unfold Obligations.CrcBytesEmitOrReject
  intro s b d h
  refine ⟨fun hst => ?_, fun hst hcrc => ?_, fun hst hcrc => ?_⟩
  · rw [← rcrcShift_toNat, BitVec.ofNat_toNat, BitVec.setWidth_eq]
    exact exec_frxByte_of_takenAsData h (frxData_readCrcLo (f := s.frx.escapeUsed) hst d)
  · rw [← Frx.verdict_of_match hcrc, ← Frx.escapeUsed_verdict]
    exact exec_frxByte_of_takenAsData h (frxData_eq_verdict (f := s.frx.escapeUsed) hst d)
  · rw [← Frx.verdict_of_mismatch hcrc, ← Frx.escapeUsed_verdict]
    exact exec_frxByte_of_takenAsData h (frxData_eq_verdict (f := s.frx.escapeUsed) hst d)

/-- Settles O37, by the one case of FRX.BYTE that has an outcome (`readCrcHi_of_frxByte_ne_frxOk`). -/
theorem outcomeOnlyOnTheHighCrcByte : Obligations.OutcomeOnlyOnTheHighCrcByte := by
  unfold Obligations.OutcomeOnlyOnTheHighCrcByte
  intro s t b r hexec hrsps hr
  obtain rfl := eq_resultOf_of_exec hexec hrsps
  obtain ⟨hst, d, hd, heq⟩ := readCrcHi_of_frxByte_ne_frxOk hr
  rw [exec_frxByte_of_eq heq] at hexec
  cases hexec
  refine ⟨hst, ⟨d, (takenAsData_iff s b d).mpr hd⟩, rfl, ?_⟩
  rw [State.resultOf, heq, Frx.verdict]
  split
  · exact .inl rfl
  · exact .inr rfl

/-- Settles O38: the message is emitted in `READ_CRC_HI` with the received CRC equal to the running one, which by the invariant
is the CRC of type, length and payload (`Frx.inv_of_readCrcHi`). -/
theorem emittedMessageHasItsCrc : Obligations.EmittedMessageHasItsCrc := by
  unfold Obligations.EmittedMessageHasItsCrc
  intro s t b type payload hinv hexec hrsps
  have hres : okRes (.msg type payload) = (frxByte s.cfg.escEsc s.frx b).2 := eq_resultOf_of_exec hexec hrsps
  have hne : (frxByte s.cfg.escEsc s.frx b).2 ≠ frxOk := by simp [← hres, okRes, frxOk, okResult]
  obtain ⟨hst, d, hd, heq⟩ := readCrcHi_of_frxByte_ne_frxOk hne
  obtain ⟨hlen, hxcrc, -⟩ := (Frx.inv_of_readCrcHi hst).mp hinv
  rw [heq, Frx.verdict] at hres
  split at hres
  next hmatch =>
    obtain ⟨rfl, rfl⟩ : type = s.frx.type ∧ payload = s.frx.pay := by simpa [okRes, okResult] using hres
    have hbody : body s.frx.type s.frx.pay = [s.frx.type, s.frx.len] ++ s.frx.pay := by
      rw [body, hlen, BitVec.ofNat_toNat, BitVec.setWidth_eq]
    refine ⟨hlen, by omega, d, (takenAsData_iff s b d).mpr hd, ?_⟩
    rw [hbody, ← crc16_toNat, ← hxcrc, (rcrcShift_eq_iff ..).mp hmatch]
  next => exact absurd hres (by simp [okRes, raise])

/-- Settles O40: the frame's verdict compares the CRC it carries with that of its body (`execSeq_frxFeed_wireWithCrc`). -/
theorem wrongCrcIsRejected : Obligations.WrongCrcIsRejected := by
  unfold Obligations.WrongCrcIsRejected
  intro type payload c s h hc
  rw [execSeq_frxFeed_wireWithCrc type h, frameVerdict_of_ne]
  rintro rfl
  exact hc (crc16_toNat _)

/-- Settles O41: the damage changes the CRC of the body (`crc16_body_ne_of_damage`), so the CRC bytes no longer match. -/
theorem singleByteDamageIsDetected : Obligations.SingleByteDamageIsDetected := by
  unfold Obligations.SingleByteDamageIsDetected
  intro type type' payload payload' c s h hc hdamage
  obtain ⟨hlen, hne⟩ := crc16_body_ne_of_damage hdamage
  have hcrc : c = crc16 (body type payload) := BitVec.eq_of_toNat_eq (hc.trans (crc16_toNat _).symm)
  rw [execSeq_frxFeed_wireWithCrc type' (hlen.trans_le h), frameVerdict_of_ne (hcrc ▸ hne)]

/-- Settles O43: the two runs are one (`frxRun_variant_congr`). -/
theorem variantsDifferOnlyOnTwoMarkers : Obligations.VariantsDifferOnlyOnTwoMarkers := by
  unfold Obligations.VariantsDifferOnlyOnTwoMarkers
  intro wire s hwire hescf
  have hpending : s.frx.escf ≠ true := by simp [hescf]
  have hrun := frxRun_variant_congr .data .mark hwire (fun h => absurd h hpending) (fun h => absurd h hpending)
  exact ⟨_, _, execSeq_frxFeed wire _, execSeq_frxFeed wire _, congrArg Prod.fst hrun,
    congrArg (s.rsps ++ ·.2) hrun⟩

/-- Settles O31, by the sync and the discard rule of FRX.BYTE (R107, R108). -/
theorem syncStartsAFrameAndTheRestIsDropped : Obligations.SyncStartsAFrameAndTheRestIsDropped := by
  unfold Obligations.SyncStartsAFrameAndTheRestIsDropped
  intro b s
  refine ⟨?_, fun hb hst => exec_frxByte_of_eq (frxByte_waitSync _ hb hst)⟩
  rintro rfl
  exact exec_frxByte_of_eq (frxByte_syncByte _ _)

/-- Settles O32, by the marker rule of FRX.BYTE (`frxByte_escByte`). -/
theorem markerSetsTheEscapeFlag : Obligations.MarkerSetsTheEscapeFlag := by
  unfold Obligations.MarkerSetsTheEscapeFlag
  exact fun s hst h => exec_frxByte_of_eq (frxByte_escByte hst h)

/-- Settles O33, by the data-byte rules of `READ_TYPE` and `READ_LEN` (R110, R111). -/
theorem typeAndLengthAreTaken : Obligations.TypeAndLengthAreTaken := by
  unfold Obligations.TypeAndLengthAreTaken
  intro s b d h
  rw [ofNat_crcByteNumber]
  refine ⟨fun hst => ?_, fun hst hd => ?_, fun hst hd => ?_⟩
  · exact exec_frxByte_of_takenAsData h (frxData_readType (f := s.frx.escapeUsed) hst d)
  · subst hd
    exact exec_frxByte_of_takenAsData h (frxData_readLen_zero (f := s.frx.escapeUsed) hst)
  · exact exec_frxByte_of_takenAsData h (frxData_readLen_of_ne (f := s.frx.escapeUsed) hst hd)

/-- Settles O34, by the two data-byte rules of `READ_PAYLOAD` (R112). -/
theorem payloadBytesAreAppended : Obligations.PayloadBytesAreAppended := by
  unfold Obligations.PayloadBytesAreAppended
  intro s b d h hst
  rw [ofNat_crcByteNumber]
  exact ⟨fun hlen => exec_frxByte_of_takenAsData h (frxData_readPayload_last (f := s.frx.escapeUsed) hst hlen d),
    fun hlen => exec_frxByte_of_takenAsData h (frxData_readPayload_of_ne (f := s.frx.escapeUsed) hst hlen d)⟩

/-- Settles O36: the three packets are those `encode` writes, and each operation writes FRX its reset value
(`exec_eq_deliver`). -/
theorem channelEventsEndTheFrame : Obligations.ChannelEventsEndTheFrame := by
  unfold Obligations.ChannelEventsEndTheFrame
  intro s
  exact ⟨decode_encode (i := .frxEos) rfl, decode_encode (i := .frxTmo) rfl, decode_encode (i := .frxClr) rfl,
    exec_eq_deliver .frxEos s, exec_eq_deliver .frxTmo s, exec_eq_deliver .frxClr s⟩

end Sys2Proof.Proofs
end

section
/-! PROOFS. FTX.SEND on each side of the payload limit (44_frame_transmitter.md R130, R131). -/

namespace Sys2Proof.Machine

open Sys2Proof.Claims

theorem exec_ftxSend_of_length_le (type : Byte) {payload : List Byte} (h : payload.length ≤ 255) (s : State) :
    exec (.ftxSend type payload) s = .next (s.deliver (okOut (wireWithCrc type payload (crc16 (body type payload))))) := by
  have hsend := exec_eq_deliver (.ftxSend type payload) s
  rw [State.resultOf, if_neg (show ¬payload.length > maxPayload from Nat.not_lt.mpr h), frame_eq_wireWithCrc] at hsend
  exact hsend

theorem exec_ftxSend_of_lt_length (type : Byte) {payload : List Byte} (h : 255 < payload.length) (s : State) :
    exec (.ftxSend type payload) s = .next (s.deliver (raised .payloadTooLarge)) := by
  have hsend := exec_eq_deliver (.ftxSend type payload) s
  rw [State.resultOf, if_pos (show payload.length > maxPayload from h)] at hsend
  exact hsend

end Sys2Proof.Machine
end

section
/-! PROOFS. The statements about the FTX unit (44_frame_transmitter.md). -/

namespace Sys2Proof.Proofs

open Sys2Proof.Machine

/-- Settles O45: FTX.SEND on each side of the limit (`exec_ftxSend_of_length_le`, `exec_ftxSend_of_lt_length`); the CRC on numbers
is `crc16` (`ofNat_crc16Number`). -/
theorem ftxSendEmitsTheFrame : Obligations.FtxSendEmitsTheFrame := by
  unfold Obligations.FtxSendEmitsTheFrame
  intro type payload s
  rw [ofNat_crc16Number]
  exact ⟨fun h => exec_ftxSend_of_length_le type h s, fun h => exec_ftxSend_of_lt_length type h s⟩

/-- Settles O46: what follows the sync byte is `escape` of the body and its CRC, and `escape` gives canonical sequences
(`canonicalEscaped_escape`). -/
theorem frameHasOneSyncByte : Obligations.FrameHasOneSyncByte := by
  unfold Obligations.FrameHasOneSyncByte
  intro type payload s h
  exact ⟨_, exec_ftxSend_of_length_le type h s, canonicalEscaped_escape _⟩

/-- Settles O48: CRC.BLK reports `crc16` of the body, ESC.ENCB emits `escape` of the body with that value's bytes, and FTX.SEND
emits this after the sync byte, with CRC as it was. -/
theorem ftxSendIsCrcThenEscape : Obligations.FtxSendIsCrcThenEscape := by
  unfold Obligations.FtxSendIsCrcThenEscape
  intro type payload s h
  exact ⟨_, _, exec_eq_deliver (.crcBlk _) s, exec_eq_deliver (.escEncb _) s, exec_ftxSend_of_length_le type h s⟩

end Sys2Proof.Proofs
end

section
/-! PROOFS. PIN.UNPK on nibbles (45_access_codec.md R141): what it reads is exactly what `PacksDigits` says of the word, and
PIN.PACK writes such words. -/

namespace Sys2Proof.Machine

open Sys2Proof.Claims

theorem topNibble_lt (w : Word32) (i : Nat) : topNibble w i < 16 := Nat.mod_lt _ (by decide)

@[simp] theorem nibbles_length (w : Word32) : (nibbles w).length = 8 := rfl

theorem nibbles_getElem_toNat (w : Word32) {i : Nat} (h : i < (nibbles w).length) :
    (nibbles w)[i].toNat = topNibble w i := by
  rw [nibbles_length] at h
  unfold topNibble
  interval_cases i <;> simp [nibbles, BitVec.extractLsb'_toNat, Nat.shiftRight_eq_div_pow]

theorem nibbles_getElem_eq_pinFill (w : Word32) {i : Nat} (h : i < (nibbles w).length) :
    (nibbles w)[i] = pinFill ↔ topNibble w i = 15 := by
  rw [← nibbles_getElem_toNat w h, ← BitVec.toNat_inj]
  rfl

/-- The number of leading fill nibbles, the `k` of R141. -/
def fillCount (w : Word32) : Nat := (nibbles w).findIdx fun d => !(d == pinFill)

theorem dropWhile_nibbles (w : Word32) : (nibbles w).dropWhile (· == pinFill) = (nibbles w).drop (fillCount w) :=
  List.dropWhile_eq_drop_findIdx_not

theorem topNibble_of_lt_fillCount {w : Word32} {i : Nat} (h : i < fillCount w) : topNibble w i = 15 := by
  have hlen : i < (nibbles w).length := Nat.lt_of_lt_of_le h List.findIdx_le_length
  rw [← nibbles_getElem_eq_pinFill w hlen]
  simpa using List.not_of_lt_findIdx h

/-- A digit behind fill nibbles ends them. -/
theorem fillCount_eq {w : Word32} {k : Nat} (hk : k < 8) (hfill : ∀ i, i < k → topNibble w i = 15)
    (hdigit : topNibble w k ≤ 9) : fillCount w = k := by
  refine (List.findIdx_eq (xs := nibbles w) hk).mpr ⟨?_, fun j hj => ?_⟩
  · have hne := mt (nibbles_getElem_eq_pinFill w hk).mp (show topNibble w k ≠ 15 by omega)
    simpa using hne
  · simpa using (nibbles_getElem_eq_pinFill w _).mpr (hfill j hj)

/-- The nibbles behind the fill are all digits. -/
theorem forall_mem_drop_nibbles {w : Word32} {k : Nat} :
    (∀ d ∈ (nibbles w).drop k, d.toNat ≤ 9) ↔ ∀ i, i < 8 - k → topNibble w (k + i) ≤ 9 := by
  simp only [List.forall_mem_iff_forall_getElem, List.length_drop, nibbles_length, List.getElem_drop, nibbles_getElem_toNat]

/-- The digits read behind `k` nibbles, one by one. -/
theorem drop_nibbles_getElem_toNat (w : Word32) {k i : Nat}
    (h : i < (((nibbles w).drop k).map (BitVec.zeroExtend 8)).length) :
    (((nibbles w).drop k).map (BitVec.zeroExtend 8))[i].toNat = topNibble w (k + i) := by
  have hnibble := topNibble_lt w (k + i)
  rw [List.getElem_map, List.getElem_drop, BitVec.toNat_setWidth, nibbles_getElem_toNat]
  omega

/-- PIN.UNPK accepts a word with at most seven fill nibbles and digits behind them, and reports these. -/
theorem unpackPin_eq (w : Word32) :
    unpackPin w =
      if fillCount w < 8 ∧ ∀ i, i < 8 - fillCount w → topNibble w (fillCount w + i) ≤ 9 then
        some (((nibbles w).drop (fillCount w)).map (BitVec.zeroExtend 8))
      else none := by
  have hne : (nibbles w).drop (fillCount w) ≠ [] ↔ fillCount w < 8 := by
    rw [ne_eq, List.drop_eq_nil_iff, nibbles_length, not_le]
  simp only [unpackPin, dropWhile_nibbles, List.all_eq_true, decide_eq_true_eq, forall_mem_drop_nibbles, hne]

theorem unpackPin_eq_some_iff (w : Word32) (ds : List Byte) : unpackPin w = some ds ↔ PacksDigits w ds := by
  rw [unpackPin_eq]
  constructor
  · intro h
    obtain ⟨⟨hk, hdigits⟩, hds⟩ := Option.ite_none_right_eq_some.mp h
    cases hds
    refine ⟨fillCount w, by omega, by simp, fun i => topNibble_of_lt_fillCount, fun i hi => ⟨hdigits i hi, ?_⟩⟩
    rw [List.getD_eq_getElem _ _ (by simpa using hi), drop_nibbles_getElem_toNat]
  · rintro ⟨k, hk, hlen, hfill, hdigits⟩
    have hcount : fillCount w = k := fillCount_eq (by omega) hfill (hdigits 0 (by omega)).1
    rw [hcount, if_pos ⟨by omega, fun i hi => (hdigits i hi).1⟩, Option.some.injEq]
    refine List.ext_getElem (by simp [hlen]) fun i hi hi' => BitVec.eq_of_toNat_eq ?_
    rw [drop_nibbles_getElem_toNat, ← List.getD_eq_getElem _ 0 hi', (hdigits i (by omega)).2]

theorem unpackPin_eq_none_iff (w : Word32) : unpackPin w = none ↔ ¬∃ ds, PacksDigits w ds := by
  simp only [Option.eq_none_iff_forall_ne_some, ne_eq, unpackPin_eq_some_iff, not_exists]

/-- PIN.PACK of one to eight digits writes a canonical packed PIN of them (45_access_codec.md R140, R141). -/
theorem packsDigits_packPin {ds : List Byte} (hds : AllDigits ds) (hpos : 1 ≤ ds.length) (hlen : ds.length ≤ 8) :
    PacksDigits (packPin ds) ds := by
  refine ⟨8 - ds.length, by omega, by omega, fun i hi => ?_, fun i hi => ?_⟩
  · rw [topNibble_packPin hds hlen (by omega), if_pos hi]
  · rw [topNibble_packPin hds hlen (by omega), if_neg (by omega), Nat.add_sub_cancel_left]
    rw [List.getD_eq_getElem _ _ (by omega)]
    exact ⟨hds _ (List.getElem_mem _), rfl⟩

end Sys2Proof.Machine
end

section
/-! PROOFS. The PIN operations and KEY.XOR (45_access_codec.md R143 to R148). -/

namespace Sys2Proof.Machine

open Sys2Proof.Claims

theorem all_isDigit_iff (ds : List Byte) : ds.all isDigit = true ↔ AllDigits ds := by
  simp only [List.all_eq_true, isDigit, decide_eq_true_eq, AllDigits]

theorem ofNat_shift_digit (a : Word32) {d : Byte} (hd : d.toNat ≤ 9) :
    BitVec.ofNat 32 (a.toNat * 16 + d.toNat) = pinShift a d := by
  apply BitVec.eq_of_toNat_eq
  rw [pinShift_toNat a (by omega), BitVec.toNat_ofNat]
  omega

theorem exec_pinDig_of_le {d : Byte} (hd : d.toNat ≤ 9) (s : State) :
    exec (.pinDig d) s = .next (State.deliver { s with pinacc := pinShift s.pinacc d } okNone) := by
  have hexec := exec_eq_deliver (.pinDig d) s
  have hdigit : isDigit d = true := decide_eq_true hd
  rw [State.written, State.resultOf, if_pos hdigit, if_pos hdigit] at hexec
  exact hexec

theorem exec_pinDig_of_lt {d : Byte} (hd : 9 < d.toNat) (s : State) :
    exec (.pinDig d) s = .next (s.deliver (raised .pinDigit)) := by
  have hexec := exec_eq_deliver (.pinDig d) s
  have hdigit : ¬isDigit d = true := by simpa [isDigit] using hd
  rw [State.written, State.resultOf, if_neg hdigit, if_neg hdigit] at hexec
  exact hexec

theorem exec_pinPack_of_allDigits {ds : List Byte} (hds : AllDigits ds) (s : State) :
    exec (.pinPack ds) s = .next (State.deliver { s with pinacc := packPin ds } (okRes (.u32 (packPin ds)))) := by
  have hexec := exec_eq_deliver (.pinPack ds) s
  have hall := (all_isDigit_iff ds).mpr hds
  rw [State.written, State.resultOf, if_pos hall, if_pos hall] at hexec
  exact hexec

theorem exec_pinPack_of_not_allDigits {ds : List Byte} (hds : ¬AllDigits ds) (s : State) :
    exec (.pinPack ds) s = .next (s.deliver (raised .pinDigit)) := by
  have hexec := exec_eq_deliver (.pinPack ds) s
  have hall := mt (all_isDigit_iff ds).mp hds
  rw [State.written, State.resultOf, if_neg hall, if_neg hall] at hexec
  exact hexec

theorem exec_pinUnpk_of_packsDigits {w : Word32} {ds : List Byte} (h : PacksDigits w ds) (s : State) :
    exec (.pinUnpk w) s = .next (s.deliver (okRes (.digits ds))) := by
  have hexec := exec_eq_deliver (.pinUnpk w) s
  rw [State.resultOf, unpackResult, (unpackPin_eq_some_iff w ds).mpr h] at hexec
  exact hexec

theorem exec_pinUnpk_of_not_packsDigits {w : Word32} (h : ¬∃ ds, PacksDigits w ds) (s : State) :
    exec (.pinUnpk w) s = .next (s.deliver (raised .pinFormat)) := by
  have hexec := exec_eq_deliver (.pinUnpk w) s
  rw [State.resultOf, unpackResult, (unpackPin_eq_none_iff w).mpr h] at hexec
  exact hexec

/-- KEY.XOR by the value it reports. -/
theorem exec_keyXor_of_eq {a b k : Word32} (h : a ^^^ b = k) (s : State) :
    exec (.keyXor a b) s = .next (s.deliver (okRes (.u32 k))) := by
  subst h
  exact exec_eq_deliver (.keyXor a b) s

/-- PIN.DIG of each digit in order folds `pinShift` over them and delivers one empty result for each
(45_access_codec.md R144). -/
theorem execSeq_pinDig {ds : List Byte} (hds : AllDigits ds) (s : State) :
    execSeq (ds.map .pinDig) s = .next { s with
      pinacc := ds.foldl pinShift s.pinacc
      rsps := s.rsps ++ List.replicate ds.length okNone } := by
  induction ds generalizing s with
  | nil => simp
  | cons d ds ih =>
    obtain ⟨hd, hrest⟩ := List.forall_mem_cons.mp hds
    rw [List.map_cons, execSeq_cons_of_exec (exec_pinDig_of_le hd s), ih hrest]
    simp [State.deliver, List.replicate_succ]

/-- From PIN.CLR the fold starts at `PIN_INIT`, so it is `packPin` of the digits, and PIN.RD reports that
(45_access_codec.md R143, R145). -/
theorem execSeq_pinClr_pinDig_pinRd {ds : List Byte} (hds : AllDigits ds) (s : State) :
    execSeq (.pinClr :: (ds.map .pinDig ++ [.pinRd])) s = .next { s with
      pinacc := packPin ds
      rsps := s.rsps ++ [okNone] ++ List.replicate ds.length okNone ++ [okRes (.u32 (packPin ds))] } := by
  rw [execSeq_cons_of_exec (exec_eq_deliver .pinClr s), execSeq_append_of_execSeq (execSeq_pinDig hds _),
    execSeq_cons_of_exec (exec_eq_deliver .pinRd _)]
  rfl

end Sys2Proof.Machine
end

section
/-! PROOFS. The access record (30_encoding.md R59 to R61; 45_access_codec.md R152): its key and the fields of its access byte,
on numbers, and as REC.ENC writes them. -/

namespace Sys2Proof

theorem le32_eq_ofNat (v : Word32) :
    le32 v = [BitVec.ofNat 8 v.toNat, BitVec.ofNat 8 (v.toNat / 2 ^ 8), BitVec.ofNat 8 (v.toNat / 2 ^ 16),
      BitVec.ofNat 8 (v.toNat / 2 ^ 24)] := by
  simp only [le32, List.cons.injEq, ← BitVec.toNat_inj, BitVec.extractLsb'_toNat, BitVec.toNat_ofNat,
    Nat.shiftRight_eq_div_pow, Nat.pow_zero, Nat.div_one, and_self]

theorem fromLe32_toNat (b0 b1 b2 b3 : Byte) :
    (fromLe32 b0 b1 b2 b3).toNat =
      b0.toNat + b1.toNat * 2 ^ 8 + b2.toNat * 2 ^ 16 + b3.toNat * 2 ^ 24 := by
  have hpair : (b3 ++ b2).toNat = b2.toNat + 256 * b3.toNat := fromLe16_toNat b2 b3
  have h1 := Nat.two_pow_add_eq_or_of_lt b1.isLt (b3 ++ b2).toNat
  have h0 := Nat.two_pow_add_eq_or_of_lt b0.isLt (b3 ++ b2 ++ b1).toNat
  rw [BitVec.toNat_append, Nat.shiftLeft_eq, Nat.mul_comm _ (2 ^ 8), ← h1] at h0
  rw [fromLe32, BitVec.toNat_append, BitVec.toNat_append, Nat.shiftLeft_eq, Nat.shiftLeft_eq, Nat.mul_comm _ (2 ^ 8),
    Nat.mul_comm (b3 ++ b2).toNat, ← h1, ← h0]
  omega

end Sys2Proof

namespace Sys2Proof.Machine

open Sys2Proof.Claims

theorem recordKey_eq_keyOf (r : RecBytes) : recordKey r = keyOf r := by
  rw [keyOf, ← fromLe32_toNat, BitVec.ofNat_toNat, BitVec.setWidth_eq]
  rfl

theorem accessDoors_eq_ofNat (access : Byte) : accessDoors access = BitVec.ofNat 4 (access.toNat / 16) := by
  rw [accessDoors, ← BitVec.toNat_inj, BitVec.extractLsb'_toNat, BitVec.toNat_ofNat, Nat.shiftRight_eq_div_pow]

theorem accessInvalid_eq_decide (access : Byte) : accessInvalid access = decide (access.toNat / 4 % 2 = 1) := by
  rw [accessInvalid, ← BitVec.testBit_toNat, Nat.testBit_eq_decide_div_mod_eq]

theorem accessTypeCode_toNat (access : Byte) : (accessTypeCode access).toNat = access.toNat % 4 := by
  rw [accessTypeCode, BitVec.extractLsb'_toNat, Nat.shiftRight_zero]

/-- The access byte as R150 writes it, on numbers. -/
theorem accessByte_toNat (doors : BitVec 4) (code : BitVec 2) :
    (accessByte doors code).toNat = doors.toNat * 16 + code.toNat := by
  have hdoors := doors.isLt
  have hcode := code.isLt
  have hor := Nat.two_pow_add_eq_or_of_lt (i := 4) (show code.toNat < 2 ^ 4 by omega) doors.toNat
  have hshift : doors.toNat % 2 ^ 8 * 2 ^ 4 % 2 ^ 8 = 2 ^ 4 * doors.toNat := by omega
  have hext : code.toNat % 2 ^ 8 = code.toNat := Nat.mod_eq_of_lt (by omega)
  simp only [accessByte, BitVec.toNat_or, BitVec.toNat_shiftLeft, BitVec.zeroExtend, BitVec.toNat_setWidth,
    Nat.shiftLeft_eq, hshift, hext, ← hor]
  omega

theorem accessByte_eq_ofNat (doors : BitVec 4) (code : BitVec 2) :
    accessByte doors code = BitVec.ofNat 8 (doors.toNat * 16 + code.toNat) := by
  rw [← accessByte_toNat, BitVec.ofNat_toNat, BitVec.setWidth_eq]

/-! ### The fields REC.ENC writes read back (45_access_codec.md R151, R157) -/

theorem accessDoors_accessByte (doors : BitVec 4) (code : BitVec 2) : accessDoors (accessByte doors code) = doors := by
  have hcode := code.isLt
  have hdiv : (doors.toNat * 16 + code.toNat) / 16 = doors.toNat := by omega
  rw [accessDoors_eq_ofNat, accessByte_toNat, hdiv, BitVec.ofNat_toNat, BitVec.setWidth_eq]

theorem accessInvalid_accessByte (doors : BitVec 4) (code : BitVec 2) :
    accessInvalid (accessByte doors code) = false := by
  have hcode := code.isLt
  rw [accessInvalid_eq_decide, accessByte_toNat, decide_eq_false_iff_not]
  omega

theorem accessTypeCode_accessByte (doors : BitVec 4) (code : BitVec 2) :
    accessTypeCode (accessByte doors code) = code := by
  have hcode := code.isLt
  rw [← BitVec.toNat_inj, accessTypeCode_toNat, accessByte_toNat]
  omega

theorem recordType_accessByte {cfg : Config} (h : cfg.Wf) (doors : BitVec 4) (t : AccessType) :
    recordType cfg (accessByte doors (accessCodeOf cfg.accessCode t)) = t := by
  rw [recordType, accessInvalid_accessByte, accessTypeCode_accessByte, accessTypeOf_accessCodeOf h]
  rfl

/-! ### The type of any record (45_access_codec.md R153) -/

theorem recordType_of_invalid (cfg : Config) {access : Byte} (h : access.toNat / 4 % 2 = 1) :
    recordType cfg access = .none := by
  rw [recordType, accessInvalid_eq_decide, decide_eq_true h]
  rfl

theorem recordType_of_valid {cfg : Config} (hcfg : cfg.Wf) {access : Byte} {t : AccessType}
    (hvalid : access.toNat / 4 % 2 = 0) (hcode : (accessCodeOf cfg.accessCode t).toNat = access.toNat % 4) :
    recordType cfg access = t := by
  have hinvalid : accessInvalid access = false := by
    rw [accessInvalid_eq_decide, decide_eq_false_iff_not]
    omega
  have hsame : accessTypeCode access = accessCodeOf cfg.accessCode t := by
    rw [← BitVec.toNat_inj, accessTypeCode_toNat, hcode]
  rw [recordType, hinvalid, hsame, accessTypeOf_accessCodeOf hcfg]
  rfl

end Sys2Proof.Machine
end

section
/-! PROOFS. REC.ENC (45_access_codec.md R149, R150): the rows of the precedence table, and what it emits. -/

namespace Sys2Proof.Machine

open Sys2Proof.Claims

/-! ### The precedence table (R149) -/

section Precedence

variable {f : RecFlags} (keyNone ppin card ckey : Word32)

theorem chooseKey_combined (hckey : f.hasCkey = true) :
    chooseKey keyNone f ppin card ckey = some (ckey, .cardAndPin) := by
  simp [chooseKey, hckey]

theorem chooseKey_cardAndPin (hckey : f.hasCkey = false) (hcard : f.hasCard = true)
    (hpin : f.hasPin = true) :
    chooseKey keyNone f ppin card ckey = some (card ^^^ ppin, .cardAndPin) := by
  simp [chooseKey, hckey, hcard, hpin]

theorem chooseKey_card (hckey : f.hasCkey = false) (hcard : f.hasCard = true)
    (hpin : f.hasPin = false) :
    chooseKey keyNone f ppin card ckey = some (card, .card) := by
  simp [chooseKey, hckey, hcard, hpin]

theorem chooseKey_pin (hckey : f.hasCkey = false) (hcard : f.hasCard = false)
    (hpin : f.hasPin = true) :
    chooseKey keyNone f ppin card ckey = some (ppin, .pin) := by
  simp [chooseKey, hckey, hcard, hpin]

theorem chooseKey_required (hckey : f.hasCkey = false) (hcard : f.hasCard = false)
    (hpin : f.hasPin = false) (hreq : f.req = true) :
    chooseKey keyNone f ppin card ckey = none := by
  simp [chooseKey, hckey, hcard, hpin, hreq]

theorem chooseKey_keyNone (hckey : f.hasCkey = false) (hcard : f.hasCard = false)
    (hpin : f.hasPin = false) (hreq : f.req = false) :
    chooseKey keyNone f ppin card ckey = some (keyNone, .none) := by
  simp [chooseKey, hckey, hcard, hpin, hreq]

end Precedence

/-! ### The record emitted (R150, R151) -/

theorem recFlags_doors_toNat (flags : Byte) : (recFlags flags).doors.toNat = flags.toNat / 16 := by
  have hflags := flags.isLt
  rw [recFlags, BitVec.extractLsb'_toNat, Nat.shiftRight_eq_div_pow]
  omega

theorem recFlags_doors_eq_ofNat (flags : Byte) : (recFlags flags).doors = BitVec.ofNat 4 (flags.toNat / 16) := by
  rw [← recFlags_doors_toNat, BitVec.ofNat_toNat, BitVec.setWidth_eq]

theorem recordBytes_eq_recordOf (c : AccessCode) (key : Word32) (flags : Byte) (t : AccessType) :
    recordBytes key (accessByte (recFlags flags).doors (accessCodeOf c t)) = recordOf c key (flags.toNat / 16) t := by
  rw [recordBytes, recordOf, le32_eq_ofNat, accessByte_eq_ofNat, recFlags_doors_toNat]
  rfl

variable {flags : Byte} {ppin card ckey : Word32} {s : State}

theorem exec_recEnc_of_chooseKey {key : Word32} {t : AccessType}
    (h : chooseKey s.cfg.keyNone (recFlags flags) ppin card ckey = some (key, t)) :
    exec (.recEnc flags ppin card ckey) s =
      .next (s.deliver (okOut (recordOf s.cfg.accessCode key (flags.toNat / 16) t))) := by
  have hexec := exec_eq_deliver (.recEnc flags ppin card ckey) s
  rw [State.resultOf, encodeRecord, h] at hexec
  rw [← recordBytes_eq_recordOf]
  exact hexec

theorem exec_recEnc_of_chooseKey_eq_none (h : chooseKey s.cfg.keyNone (recFlags flags) ppin card ckey = none) :
    exec (.recEnc flags ppin card ckey) s = .next (s.deliver (raised .invalidArgument)) := by
  have hexec := exec_eq_deliver (.recEnc flags ppin card ckey) s
  rw [State.resultOf, encodeRecord, h] at hexec
  exact hexec

/-- What a REC.ENC that emits five bytes has done: it chose a key and a type, the key is the bytes' key, and the fifth byte is
the access byte of the doors and the type. -/
theorem record_of_exec_recEnc {r : RecBytes}
    (h : exec (.recEnc flags ppin card ckey) s = .next (s.deliver (okOut r.toList))) :
    ∃ key t, chooseKey s.cfg.keyNone (recFlags flags) ppin card ckey = some (key, t) ∧ recordKey r = key ∧
      recordAccess r = accessByte (recFlags flags).doors (accessCodeOf s.cfg.accessCode t) := by
  have hres : okOut r.toList = encodeRecord s.cfg flags ppin card ckey := eq_resultOf_of_exec h rfl
  unfold encodeRecord at hres
  split at hres
  · cases congrArg Result.status hres
  · rename_i key t hchoose
    have hbytes : r.toList = recordBytes key (accessByte (recFlags flags).doors (accessCodeOf s.cfg.accessCode t)) :=
      congrArg Result.out hres
    obtain ⟨b0, b1, b2, b3, b4⟩ := r
    simp only [RecBytes.toList, recordBytes, le32, List.cons_append, List.nil_append, List.cons.injEq, and_true] at hbytes
    obtain ⟨rfl, rfl, rfl, rfl, rfl⟩ := hbytes
    exact ⟨key, t, hchoose, fromLe32_le32 key, rfl⟩

end Sys2Proof.Machine
end

section
/-! PROOFS. REC.DEC (45_access_codec.md R153 to R155), by its hint and by what the key gives. -/

namespace Sys2Proof.Machine

open Sys2Proof.Claims

/-- The reserved selectors on numbers (30_encoding.md R66). -/
theorem hintOf_eq_none_iff_lt {hsel : Byte} {hint : Word32} : hintOf hsel hint = none ↔ 2 < hsel.toNat := by
  rw [hintOf_eq_none, ← BitVec.toNat_ne_iff_ne, ← BitVec.toNat_ne_iff_ne, ← BitVec.toNat_ne_iff_ne]
  simp only [BitVec.ofNat_eq_ofNat, BitVec.toNat_ofNat]
  omega

theorem exists_hintOf_eq_some {hsel : Byte} (h : hsel.toNat ≤ 2) (hint : Word32) : ∃ hn, hintOf hsel hint = some hn :=
  Option.ne_none_iff_exists'.mp (mt hintOf_eq_none_iff_lt.mp (Nat.not_lt.mpr h))

theorem recoverCredentials_pin {key : Word32} {ds : List Byte} (h : PacksDigits key ds) (hn : Hint) :
    recoverCredentials .pin hn key = some (some ds, none) := by
  rw [recoverCredentials, (unpackPin_eq_some_iff key ds).mpr h]
  rfl

theorem recoverCredentials_pin_eq_none {key : Word32} (h : ¬∃ ds, PacksDigits key ds) (hn : Hint) :
    recoverCredentials .pin hn key = none := by
  rw [recoverCredentials, (unpackPin_eq_none_iff key).mpr h]
  rfl

theorem recoverCredentials_cardHint {key card : Word32} {ds : List Byte} (h : PacksDigits (key ^^^ card) ds) :
    recoverCredentials .cardAndPin (.card card) key = some (some ds, none) := by
  rw [recoverCredentials, (unpackPin_eq_some_iff _ ds).mpr h]
  rfl

theorem recoverCredentials_cardHint_eq_none {key card : Word32} (h : ¬∃ ds, PacksDigits (key ^^^ card) ds) :
    recoverCredentials .cardAndPin (.card card) key = none := by
  rw [recoverCredentials, (unpackPin_eq_none_iff _).mpr h]
  rfl

variable {r : RecBytes} {hsel : Byte} {hint : Word32} {s : State}

theorem exec_recDec_of_reserved (h : 2 < hsel.toNat) :
    exec (.recDec r hsel hint) s = .next (s.deliver (raised .reservedField)) := by
  have hexec := exec_eq_deliver (.recDec r hsel hint) s
  rw [State.resultOf, decodeRecord, hintOf_eq_none_iff_lt.mpr h] at hexec
  exact hexec

theorem report_eq (r : RecBytes) (t : AccessType) (pin : Option (List Byte)) (card : Option Word32) :
    report r t pin card =
      okRes (.record ⟨t, accessInvalid (recordAccess r), accessDoors (recordAccess r), recordKey r, pin, card⟩) := by
  rw [accessInvalid_eq_decide, accessDoors_eq_ofNat, recordKey_eq_keyOf]
  rfl

variable {hn : Hint} {t : AccessType}

theorem exec_recDec_of_recovered {pin : Option (List Byte)} {card : Option Word32} (hhint : hintOf hsel hint = some hn)
    (htype : recordType s.cfg (recordAccess r) = t) (hrec : recoverCredentials t hn (recordKey r) = some (pin, card)) :
    exec (.recDec r hsel hint) s = .next (s.deliver (report r t pin card)) := by
  have hexec := exec_eq_deliver (.recDec r hsel hint) s
  simp only [State.resultOf, decodeRecord, hhint, htype, hrec] at hexec
  rw [report_eq]
  exact hexec

theorem exec_recDec_of_not_recovered (hhint : hintOf hsel hint = some hn)
    (htype : recordType s.cfg (recordAccess r) = t) (hrec : recoverCredentials t hn (recordKey r) = none) :
    exec (.recDec r hsel hint) s = .next (s.deliver (raised .pinFormat)) := by
  have hexec := exec_eq_deliver (.recDec r hsel hint) s
  simp only [State.resultOf, decodeRecord, hhint, htype, hrec] at hexec
  exact hexec

/-- A record REC.DEC reports carries the invalid bit of its access byte, whatever else it carries. -/
theorem invalid_of_exec_recDec {d : DecodedRecord}
    (h : exec (.recDec r hsel hint) s = .next (s.deliver (okRes (.record d)))) :
    d.invalid = accessInvalid (recordAccess r) := by
  have hres : okRes (.record d) = decodeRecord s.cfg r hsel hint := eq_resultOf_of_exec h rfl
  unfold decodeRecord at hres
  split at hres
  · cases congrArg Result.status hres
  dsimp only at hres
  split at hres
  · cases congrArg Result.status hres
  · cases hres
    rfl

/-- The report on a record that REC.ENC wrote for `key` and `t`: a valid record of that type, the doors of the flags, the key,
and what the key gives under the hint. -/
theorem exec_recDec_of_written {flags : Byte} {key : Word32} {pin : Option (List Byte)} {card : Option Word32}
    (hcfg : s.cfg.Wf) (hkey : recordKey r = key)
    (haccess : recordAccess r = accessByte (recFlags flags).doors (accessCodeOf s.cfg.accessCode t))
    (hhint : hintOf hsel hint = some hn) (hrec : recoverCredentials t hn key = some (pin, card)) :
    exec (.recDec r hsel hint) s =
      .next (s.deliver (okRes (.record ⟨t, false, BitVec.ofNat 4 (flags.toNat / 16), key, pin, card⟩))) := by
  subst hkey
  have htype : recordType s.cfg (recordAccess r) = t := by rw [haccess, recordType_accessByte hcfg]
  rw [exec_recDec_of_recovered hhint htype hrec, report_eq, haccess, accessInvalid_accessByte, accessDoors_accessByte,
    recFlags_doors_eq_ofNat]

end Sys2Proof.Machine
end

section
/-! PROOFS. The statements about the ACC unit (45_access_codec.md). -/

namespace Sys2Proof.Proofs

open Sys2Proof.Machine Sys2Proof.Claims

/-- Settles O59: the record holds the key and type that REC.ENC chose for its flags (`record_of_exec_recEnc`), and REC.DEC
reports these with what the key gives under the hint (`exec_recDec_of_written`); a combined key loses the part that is xored
in again. -/
theorem recordRoundTrip : Obligations.RecordRoundTrip := by
  unfold Obligations.RecordRoundTrip
  intro flags ds ppin card ckey r s hcfg henc
  obtain ⟨key, t, hchoose, hkey, haccess⟩ := record_of_exec_recEnc henc
  refine ⟨fun hckey hint => ?_, fun hckey hpin hcard hds hint => ?_, fun hckey hpin hcard hint => ?_,
    fun hckey hpin hcard => ?_, fun hckey hpin hcard hds => ?_, fun hsel hint d hdec => ?_⟩
  · cases hchoose.symm.trans (chooseKey_combined _ _ _ _ hckey)
    exact exec_recDec_of_written hcfg hkey haccess rfl rfl
  · cases hchoose.symm.trans (chooseKey_pin _ _ _ _ hckey hcard hpin)
    exact exec_recDec_of_written hcfg hkey haccess rfl (recoverCredentials_pin hds _)
  · cases hchoose.symm.trans (chooseKey_card _ _ _ _ hckey hcard hpin)
    exact exec_recDec_of_written hcfg hkey haccess rfl rfl
  · cases hchoose.symm.trans (chooseKey_cardAndPin _ _ _ _ hckey hcard hpin)
    refine exec_recDec_of_written hcfg hkey haccess (hn := .pin ppin) rfl ?_
    rw [recoverCredentials, xor_cancel_right]
  · cases hchoose.symm.trans (chooseKey_cardAndPin _ _ _ _ hckey hcard hpin)
    refine exec_recDec_of_written hcfg hkey haccess (hn := .card card) rfl (recoverCredentials_cardHint ?_)
    rwa [xor_xor_cancel_comm]
  · rw [invalid_of_exec_recDec hdec, haccess, accessInvalid_accessByte]

/-- Settles O51: the sequence reports `packPin` of the digits as its last result and leaves it in PINACC, as PIN.PACK does
(`execSeq_pinClr_pinDig_pinRd`); a block with another byte is refused whole (`exec_pinPack_of_not_allDigits`). -/
theorem pinPackIsTheDigitSequence : Obligations.PinPackIsTheDigitSequence := by
  unfold Obligations.PinPackIsTheDigitSequence
  refine fun ds s => ⟨fun hds => ?_, fun hds => exec_pinPack_of_not_allDigits hds s⟩
  exact ⟨_, [okNone] ++ List.replicate ds.length okNone, packPin ds, execSeq_pinClr_pinDig_pinRd hds s,
    by rw [List.append_assoc s.rsps], ⟨rfl, rfl, rfl, rfl, rfl⟩, exec_pinPack_of_allDigits hds s⟩

/-- Settles O53: `unpackPin` reads `ds` exactly from a word that packs `ds` (`unpackPin_eq_some_iff`), by the count of its fill
nibbles. -/
theorem pinUnpkReadsExactlyCanonicalPins : Obligations.PinUnpkReadsExactlyCanonicalPins := by
  unfold Obligations.PinUnpkReadsExactlyCanonicalPins
  exact fun w s => ⟨decode_encode (i := .pinUnpk w) rfl, fun _ h => exec_pinUnpk_of_packsDigits h s,
    fun h => exec_pinUnpk_of_not_packsDigits h s⟩

/-- Settles O55: the part of the key that is xored in again cancels, and `packPin` of one to eight digits is canonical
(`packsDigits_packPin`). -/
theorem combinedKeyGivesCardAndPinBack : Obligations.CombinedKeyGivesCardAndPinBack := by
  unfold Obligations.CombinedKeyGivesCardAndPinBack
  intro ds card s hds hpos hlen
  exact ⟨packPin ds, card ^^^ packPin ds, exec_pinPack_of_allDigits hds s, exec_keyXor_of_eq rfl s,
    exec_keyXor_of_eq (xor_cancel_right card _) s, exec_keyXor_of_eq (xor_xor_cancel_comm card _) s,
    exec_pinUnpk_of_packsDigits (packsDigits_packPin hds hpos hlen) s⟩

/-- Settles O56: each clause is the row of the precedence table that its flag bits select. -/
theorem recEncByPrecedence : Obligations.RecEncByPrecedence := by
  unfold Obligations.RecEncByPrecedence
  intro flags ppin card ckey s
  exact ⟨decode_encode (i := .recEnc flags ppin card ckey) rfl,
    fun hckey => exec_recEnc_of_chooseKey (chooseKey_combined _ _ _ _ hckey),
    fun hckey hcard hpin => exec_recEnc_of_chooseKey (chooseKey_cardAndPin _ _ _ _ hckey hcard hpin),
    fun hckey hcard hpin => exec_recEnc_of_chooseKey (chooseKey_card _ _ _ _ hckey hcard hpin),
    fun hckey hcard hpin => exec_recEnc_of_chooseKey (chooseKey_pin _ _ _ _ hckey hcard hpin),
    fun hckey hcard hpin hreq => exec_recEnc_of_chooseKey_eq_none (chooseKey_required _ _ _ _ hckey hcard hpin hreq),
    fun hckey hcard hpin hreq => exec_recEnc_of_chooseKey (chooseKey_keyNone _ _ _ _ hckey hcard hpin hreq)⟩

/-- Settles O58: the record's type is the one with its code (`recordType_of_valid`), and each clause is a row of R154. -/
theorem recDecRecoversByTypeAndHint : Obligations.RecDecRecoversByTypeAndHint := by
  unfold Obligations.RecDecRecoversByTypeAndHint
  intro r hsel hint t s hcfg hsel2 hvalid hcode
  have htype : recordType s.cfg (recordAccess r) = t := recordType_of_valid hcfg hvalid hcode
  obtain ⟨hn, hhint⟩ := exists_hintOf_eq_some hsel2 hint
  rw [← recordKey_eq_keyOf]
  refine ⟨?_, ?_, ?_, ?_, ?_, ?_, ?_, ?_⟩
  · rintro rfl
    exact exec_recDec_of_recovered hhint htype rfl
  · rintro rfl
    exact exec_recDec_of_recovered hhint htype rfl
  · rintro rfl ds hds
    exact exec_recDec_of_recovered hhint htype (recoverCredentials_pin hds hn)
  · rintro rfl hds
    exact exec_recDec_of_not_recovered hhint htype (recoverCredentials_pin_eq_none hds hn)
  · rintro rfl rfl
    exact exec_recDec_of_recovered (hn := .none) rfl htype rfl
  · rintro rfl rfl
    exact exec_recDec_of_recovered (hn := .pin hint) rfl htype rfl
  · rintro rfl rfl ds hds
    exact exec_recDec_of_recovered (hn := .card hint) rfl htype (recoverCredentials_cardHint hds)
  · rintro rfl rfl hds
    exact exec_recDec_of_not_recovered (hn := .card hint) rfl htype (recoverCredentials_cardHint_eq_none hds)

/-- Settles O49: each packet is the one `encode` writes for its operation, and each operation is its register writes and its
result (`exec_eq_deliver`). -/
theorem pinClearAndRead : Obligations.PinClearAndRead := by
  unfold Obligations.PinClearAndRead
  intro s
  exact ⟨decode_encode (i := .pinClr) rfl, decode_encode (i := .pinRd) rfl, exec_eq_deliver .pinClr s,
    exec_eq_deliver .pinRd s⟩

/-- Settles O50: PIN.DIG on each side of 9; the shift on numbers is `ofNat_shift_digit`. -/
theorem pinDigShiftsOneDigitIn : Obligations.PinDigShiftsOneDigitIn := by
  unfold Obligations.PinDigShiftsOneDigitIn
  refine fun d s => ⟨decode_encode (i := .pinDig d) rfl, fun hd => ?_, fun hd => exec_pinDig_of_lt hd s⟩
  rw [ofNat_shift_digit s.pinacc hd]
  exact exec_pinDig_of_le hd s

/-- Settles O54: the value is the exclusive or, which is commutative and undone by a second one. -/
theorem keyXorReportsTheXor : Obligations.KeyXorReportsTheXor := by
  unfold Obligations.KeyXorReportsTheXor
  intro a b s
  exact ⟨decode_encode (i := .keyXor a b) rfl, a ^^^ b, exec_keyXor_of_eq rfl s,
    exec_keyXor_of_eq (BitVec.xor_comm b a) s, exec_keyXor_of_eq (xor_cancel_right a b) s, fun i => BitVec.getLsbD_xor⟩

/-- Settles O57: a reserved selector gives no hint; the type of an invalid record is `None` (`recordType_of_invalid`), under
which the key is not looked at. -/
theorem recDecReservedAndInvalid : Obligations.RecDecReservedAndInvalid := by
  unfold Obligations.RecDecReservedAndInvalid
  refine fun r hsel hint s => ⟨exec_recDec_of_reserved, fun hsel2 hinvalid => ?_⟩
  obtain ⟨hn, hhint⟩ := exists_hintOf_eq_some hsel2 hint
  exact exec_recDec_of_recovered hhint (recordType_of_invalid s.cfg hinvalid) rfl

end Sys2Proof.Proofs
end

section
/-! PROOFS. How an operation and a step can end (60_exceptions.md R201, R203, R207): with `OK`, or with a status listed for the
operation that is all of the result and leaves the state its class gives. -/

namespace Sys2Proof.Machine

open Sys2Proof.Claims

/-! ### The results of the operations that can fail -/

theorem frxByte_ends (variant : EscEsc) (f : Frx) (b : Byte) :
    (frxByte variant f b).2.status = .ok ∨ frxByte variant f b = (Frx.reset, raise .checksumError) := by
  by_cases hquiet : (frxByte variant f b).2 = frxOk
  · exact .inl (congrArg Result.status hquiet)
  · obtain ⟨-, d, -, heq⟩ := readCrcHi_of_frxByte_ne_frxOk hquiet
    rw [heq, Frx.verdict]
    split
    · exact .inl rfl
    · exact .inr rfl

theorem unpackResult_ends (w : Word32) : (unpackResult w).status = .ok ∨ unpackResult w = raise .pinFormat := by
  unfold unpackResult
  split
  · exact .inl rfl
  · exact .inr rfl

theorem encodeRecord_ends (cfg : Config) (flags : Byte) (ppin card ckey : Word32) :
    (encodeRecord cfg flags ppin card ckey).status = .ok ∨
      encodeRecord cfg flags ppin card ckey = raise .invalidArgument := by
  unfold encodeRecord
  split
  · exact .inr rfl
  · exact .inl rfl

theorem decodeRecord_ends (cfg : Config) (record : RecBytes) (hsel : Byte) (hint : Word32) :
    (decodeRecord cfg record hsel hint).status = .ok ∨ decodeRecord cfg record hsel hint = raise .reservedField ∨
      decodeRecord cfg record hsel hint = raise .pinFormat := by
  unfold decodeRecord
  split
  · exact .inr (.inl rfl)
  · dsimp only
    split
    · exact .inr (.inr rfl)
    · exact .inl rfl

/-! ### The end of an operation -/

/-- The registers a status leaves: FRX idle for an FRX termination, all as they were for a refusal (R207). -/
def State.afterFault (s : State) : Status → State
  | .checksumError | .endOfStream | .timeout => { s with frx := Frx.reset }
  | .ok | .illegalOp | .reservedField | .payloadTooLarge | .invalidArgument | .pinDigit | .pinFormat => s

theorem State.afterFault_of_refused {status : Status}
    (h : status ∈ [Status.illegalOp, .reservedField, .payloadTooLarge, .invalidArgument, .pinDigit, .pinFormat])
    (s : State) : s.afterFault status = s := by
  cases status with
  | checksumError | endOfStream | timeout => exact absurd h (by decide)
  | _ => rfl

theorem State.afterFault_of_termination {status : Status}
    (h : status ∈ [Status.checksumError, .endOfStream, .timeout]) (s : State) :
    s.afterFault status = { s with frx := idleFrx } := by
  cases status with
  | checksumError | endOfStream | timeout => rfl
  | _ => exact absurd h (by decide)

/-- The two ways an operation ends (R201, R207). -/
inductive State.Ends (s : State) (i : Instr) : Prop
  | ok (hok : (s.resultOf i).status = .ok) (hmay : neverOk i = false)
  | fault (status : Status) (hlisted : status ∈ faultsOf i) (hraise : s.resultOf i = raise status)
      (hleft : s.written i = s.afterFault status)

/-- Every operation ends in one of them. -/
theorem State.ends (s : State) (i : Instr) : s.Ends i := by
  cases i with
  | frxByte b =>
    rcases frxByte_ends s.cfg.escEsc s.frx b with hok | heq
    · exact .ok hok rfl
    · exact .fault .checksumError List.mem_cons_self (congrArg Prod.snd heq)
        (congrArg (fun f => { s with frx := f }) (congrArg Prod.fst heq))
  | frxEos => exact .fault .endOfStream List.mem_cons_self rfl rfl
  | frxTmo => exact .fault .timeout List.mem_cons_self rfl rfl
  | pinDig d =>
    by_cases hd : isDigit d
    · exact .ok (congrArg Result.status (if_pos hd)) rfl
    · exact .fault .pinDigit List.mem_cons_self (if_neg hd) (by rw [State.written, if_neg hd]; rfl)
  | pinPack ds =>
    by_cases hds : ds.all isDigit
    · exact .ok (congrArg Result.status (if_pos hds)) rfl
    · exact .fault .pinDigit List.mem_cons_self (if_neg hds) (by rw [State.written, if_neg hds]; rfl)
  | pinUnpk w =>
    rcases unpackResult_ends w with hok | hraise
    · exact .ok hok rfl
    · exact .fault .pinFormat List.mem_cons_self hraise rfl
  | recEnc flags ppin card ckey =>
    rcases encodeRecord_ends s.cfg flags ppin card ckey with hok | hraise
    · exact .ok hok rfl
    · exact .fault .invalidArgument List.mem_cons_self hraise rfl
  | recDec record hsel hint =>
    rcases decodeRecord_ends s.cfg record hsel hint with hok | hraise | hraise
    · exact .ok hok rfl
    · exact .fault .reservedField List.mem_cons_self hraise rfl
    · exact .fault .pinFormat (List.mem_cons_of_mem _ List.mem_cons_self) hraise rfl
  | ftxSend type payload =>
    by_cases hlen : payload.length > maxPayload
    · exact .fault .payloadTooLarge List.mem_cons_self (if_pos hlen) rfl
    · exact .ok (congrArg Result.status (if_neg hlen)) rfl
  | _ => exact .ok rfl rfl

/-! ### The end of a step -/

/-- An idle step: no packet waits, and nothing happens (60_exceptions.md R213; log 1). -/
theorem step_of_cmds_nil {s : State} (h : s.cmds = []) : step s = .next s := by
  simp only [step, fetchPacket_eq_none.mpr h]

/-- A packet of a wrong length or opcode is one the decoder rejects. -/
theorem exists_decode_error {p : Packet} (h : requiredLength p ≠ some p.length) : ∃ e, decode p = .error e := by
  cases hd : decode p with
  | error e => exact ⟨e, rfl⟩
  | ok i => exact absurd ((decode_accepts p).mp ⟨i, hd⟩) h

/-- A step that delivers a result takes a packet, and the result is `OK` or a raised status that leaves its class's state. -/
theorem step_ends {s t : State} {r : Result} (hstep : step s = .next t) (hr : t.rsps = s.rsps ++ [r]) :
    r.status = .ok ∨ ∃ status, r = raise status ∧
      t = State.deliver (State.afterFault { s with cmds := s.cmds.tail } status) (raise status) := by
  rcases step_cases hstep with ⟨-, rfl⟩ | ⟨p, rest, i, hc, -, hexec⟩ | ⟨p, rest, e, hc, -, rfl⟩
  · simp at hr
  · obtain rfl := eq_resultOf_of_exec hexec hr
    rw [eq_deliver_of_exec hexec, hc, List.tail_cons]
    cases State.ends { s with cmds := rest } i with
    | ok hok _ => exact .inl hok
    | fault status _ hraise hleft => exact .inr ⟨status, hraise, by rw [hraise, hleft]⟩
  · obtain rfl : raise .illegalOp = r := List.singleton_inj.mp (List.append_cancel_left hr)
    rw [hc]
    exact .inr ⟨.illegalOp, rfl, rfl⟩

end Sys2Proof.Machine
end

section
/-! PROOFS. The statements about the exceptions (60_exceptions.md). -/

namespace Sys2Proof.Proofs

open Sys2Proof.Machine

/-- Settles O4: the decoder rejects the packet (`exists_decode_error`), and a rejected packet is refused. -/
theorem illegalPacketIsRefused : Obligations.IllegalPacketIsRefused := by
  unfold Obligations.IllegalPacketIsRefused
  intro s p rest hc hlen
  obtain ⟨e, hd⟩ := exists_decode_error hlen
  exact step_of_decode_error hc hd

/-- Settles O10, by the two ways an operation ends (`State.ends`). -/
theorem statusesAreThoseOfTheOperation : Obligations.StatusesAreThoseOfTheOperation := by
  unfold Obligations.StatusesAreThoseOfTheOperation
  intro i s t r hexec hr
  obtain rfl := eq_resultOf_of_exec hexec hr
  cases s.ends i with
  | ok hok hmay => exact .inr ⟨hok, hmay⟩
  | fault status hlisted hraise _ => exact .inl (by rwa [hraise])

/-- Settles O11: a result that is not `OK` is a raised status with the state of its class (`step_ends`), and each class is one
clause. -/
theorem faultLeavesStateByItsClass : Obligations.FaultLeavesStateByItsClass := by
  unfold Obligations.FaultLeavesStateByItsClass
  intro s t r hstep hr
  rcases step_ends hstep hr with hok | ⟨status, rfl, rfl⟩
  · rw [hok]
    exact ⟨fun h => absurd h (by decide), fun h => absurd h (by decide)⟩
  · exact ⟨fun h => congrArg (·.deliver (raise status)) (State.afterFault_of_refused h _),
      fun h => congrArg (·.deliver (raise status)) (State.afterFault_of_termination h _)⟩

/-- Settles O6, by the rule of the idle step. -/
theorem idleBlockHoldsItsRegisters : Obligations.IdleBlockHoldsItsRegisters := by
  unfold Obligations.IdleBlockHoldsItsRegisters
  exact fun s h => step_of_cmds_nil h

end Sys2Proof.Proofs
end

section
/-! PROOFS. How long a frame keeps FRX away from `WAIT_SYNC` (70_reset_and_hazards.md R232): the data bytes it can still take
bound the wire bytes it can still last under `DATA`, and a run of markers does not move it under `MARK`. -/

namespace Sys2Proof.Machine

/-! ### The data bytes of a frame -/

/-- The most data bytes the frame in progress can still take: of TYPE, LEN, 255 payload bytes and 2 CRC bytes those to come, the
payload counted by `LEN` once it has come. -/
def Frx.dataBytesLeft (f : Frx) : Nat :=
  match f.st with
  | .waitSync => 0
  | .readType => 259
  | .readLen => 258
  | .readPayload => f.len.toNat - f.pay.length + 2
  | .readCrcLo => 2
  | .readCrcHi => 1

theorem Frx.dataBytesLeft_of_waitSync {f : Frx} (h : f.st = .waitSync) : f.dataBytesLeft = 0 := by
  simp only [Frx.dataBytesLeft, h]

theorem Frx.dataBytesLeft_of_readType {f : Frx} (h : f.st = .readType) : f.dataBytesLeft = 259 := by
  simp only [Frx.dataBytesLeft, h]

theorem Frx.dataBytesLeft_of_readLen {f : Frx} (h : f.st = .readLen) : f.dataBytesLeft = 258 := by
  simp only [Frx.dataBytesLeft, h]

theorem Frx.dataBytesLeft_of_readPayload {f : Frx} (h : f.st = .readPayload) :
    f.dataBytesLeft = f.len.toNat - f.pay.length + 2 := by
  simp only [Frx.dataBytesLeft, h]

theorem Frx.dataBytesLeft_of_readCrcLo {f : Frx} (h : f.st = .readCrcLo) : f.dataBytesLeft = 2 := by
  simp only [Frx.dataBytesLeft, h]

theorem Frx.dataBytesLeft_of_readCrcHi {f : Frx} (h : f.st = .readCrcHi) : f.dataBytesLeft = 1 := by
  simp only [Frx.dataBytesLeft, h]

theorem Frx.dataBytesLeft_eq_zero {f : Frx} : f.dataBytesLeft = 0 ↔ f.st = .waitSync := by
  cases h : f.st <;> simp [Frx.dataBytesLeft, h]

/-- A data byte brings the frame nearer to its end, whatever field it is. -/
theorem frxData_dataBytesLeft_lt {f : Frx} (hf : f.Inv) (hst : f.st ≠ .waitSync) (d : Byte) :
    (frxData f d).1.dataBytesLeft < f.dataBytesLeft := by
  cases h : f.st with
  | waitSync => exact absurd h hst
  | readType =>
    rw [frxData_readType h, Frx.dataBytesLeft_of_readType h, Frx.dataBytesLeft_of_readLen rfl]
    decide
  | readLen =>
    rw [Frx.dataBytesLeft_of_readLen h]
    by_cases hd : d = 0
    · rw [hd, frxData_readLen_zero h, Frx.dataBytesLeft_of_readCrcLo rfl]
      decide
    · rw [frxData_readLen_of_ne h hd, Frx.dataBytesLeft_of_readPayload rfl]
      have hlen : d.toNat < 256 := d.isLt
      dsimp only
      omega
  | readPayload =>
    obtain ⟨hlt, -, -⟩ := (Frx.inv_of_readPayload h).mp hf
    rw [Frx.dataBytesLeft_of_readPayload h]
    by_cases hlast : f.pay.length + 1 = f.len.toNat
    · rw [frxData_readPayload_last h hlast, Frx.dataBytesLeft_of_readCrcLo rfl]
      omega
    · rw [frxData_readPayload_of_ne h hlast, Frx.dataBytesLeft_of_readPayload]
      · simp only [List.length_append, List.length_singleton]
        omega
      · exact h
  | readCrcLo =>
    rw [frxData_readCrcLo h, Frx.dataBytesLeft_of_readCrcLo h, Frx.dataBytesLeft_of_readCrcHi rfl]
    decide
  | readCrcHi =>
    rw [frxData_eq_verdict h, Frx.dataBytesLeft_of_readCrcHi h, Frx.dataBytesLeft_of_waitSync rfl]
    decide

/-! ### The wire bytes of a frame under `DATA` -/

/-- The most wire bytes without a sync that the frame can still last under `DATA`: a marker and a byte for each data byte,
less the marker of a pending escape. -/
def Frx.wireBytesLeft (f : Frx) : Nat := 2 * f.dataBytesLeft - f.escf.toNat

theorem Frx.wireBytesLeft_start (f : Frx) : f.start.wireBytesLeft = 518 := by
  rw [Frx.wireBytesLeft, Frx.dataBytesLeft_of_readType f.start_st, Frx.start_escf, Bool.toNat_false]

theorem Frx.wireBytesLeft_eq_zero {f : Frx} : f.wireBytesLeft = 0 ↔ f.st = .waitSync := by
  have hescf := f.escf.toNat_le
  rw [← Frx.dataBytesLeft_eq_zero, Frx.wireBytesLeft]
  omega

/-- Under `DATA` every wire byte but a sync uses up one: a marker sets the escape flag, and any other byte in a frame is a data
byte, with at most one escape pending before it. -/
theorem frxByte_wireBytesLeft_le {f : Frx} (hf : f.Inv) {b : Byte} (hb : b ≠ syncByte) :
    (frxByte .data f b).1.wireBytesLeft ≤ f.wireBytesLeft - 1 := by
  rcases frxByte_cases .data f b with ⟨hsync, -⟩ | ⟨-, hst, heq⟩ | ⟨-, -, hescf, heq⟩ | ⟨d, -, hst, -, heq⟩
  · exact absurd hsync hb
  · rw [heq, Frx.wireBytesLeft_eq_zero.mpr hst]
  · have hclear : f.escf = false := hescf.resolve_right (by decide)
    rw [heq, Frx.wireBytesLeft, Frx.wireBytesLeft, hclear]
    exact Nat.le_refl _
  · have hescf := f.escf.toNat_le
    have hlt : (frxByte .data f b).1.dataBytesLeft < f.dataBytesLeft := by
      rw [heq]
      exact frxData_dataBytesLeft_lt (hf.withEscf hst false) hst d
    rw [Frx.wireBytesLeft, Frx.wireBytesLeft]
    omega

theorem frxRun_wireBytesLeft_le {wire : List Byte} (hwire : syncByte ∉ wire) {f : Frx} (hf : f.Inv) :
    (frxRun .data wire f).1.wireBytesLeft ≤ f.wireBytesLeft - wire.length := by
  induction wire generalizing f with
  | nil => exact Nat.le_refl _
  | cons b wire ih =>
    obtain ⟨hb, hrest⟩ := List.ne_and_not_mem_of_not_mem_cons hwire
    have hbyte := frxByte_wireBytesLeft_le hf hb.symm
    refine (ih hrest (frxByte_keeps_inv .data b hf)).trans ?_
    rw [List.length_cons]
    omega

/-- As many wire bytes as a frame can last end it. -/
theorem frxRun_waitSync {wire : List Byte} (hwire : syncByte ∉ wire) {f : Frx} (hf : f.Inv)
    (hlen : f.wireBytesLeft ≤ wire.length) : (frxRun .data wire f).1.st = .waitSync := by
  have hleft := frxRun_wireBytesLeft_le hwire hf
  exact Frx.wireBytesLeft_eq_zero.mp (by omega)

/-! ### A run of markers under `MARK` -/

theorem frxRun_mark_replicate_escByte_st (n : Nat) {f : Frx} (hst : f.st ≠ .waitSync) :
    (frxRun .mark (List.replicate n escByte) f).1.st = f.st := by
  induction n generalizing f with
  | zero => rfl
  | succ n ih =>
    rw [List.replicate_succ, frxRun, frxByte_escByte hst (.inr rfl)]
    exact ih (f := { f with escf := true }) hst

end Sys2Proof.Machine
end

section
/-! PROOFS. The statements about reset and the bounds on work (70_reset_and_hazards.md). -/

namespace Sys2Proof.Proofs

open Sys2Proof.Machine Sys2Proof.Claims

/-- Settles O44: the sync byte starts a frame of at most 518 wire bytes, each of which uses up one (`frxRun_waitSync`); under
`MARK` a `7D` only sets the escape flag (`frxRun_mark_replicate_escByte_st`). -/
theorem frameEndsWithinItsBound : Obligations.FrameEndsWithinItsBound := by
  unfold Obligations.FrameEndsWithinItsBound
  refine ⟨fun wire s hdata hlen hwire => ?_, fun n s hmark hst => ?_⟩
  · refine ⟨518, _, Nat.le_refl _, execSeq_frxFeed _ s, ?_⟩
    rw [← hlen, List.take_length, hdata, ← syncByte, frxRun, frxByte_syncByte]
    exact frxRun_waitSync hwire s.frx.inv_start (by rw [Frx.wireBytesLeft_start, hlen])
  · refine ⟨_, execSeq_frxFeed _ s, ?_⟩
    rw [hmark]
    exact frxRun_mark_replicate_escByte_st n hst

/-- Settles O15: each clear writes the reset value of its unit's register, whatever it held, and delivers `OK`
(`exec_eq_deliver`). -/
theorem fourClearsReachTheResetRegisters : Obligations.FourClearsReachTheResetRegisters := by
  unfold Obligations.FourClearsReachTheResetRegisters
  intro s
  rw [execSeq_cons_of_exec (exec_eq_deliver .crcClr s), execSeq_cons_of_exec (exec_eq_deliver .escClr _),
    execSeq_cons_of_exec (exec_eq_deliver .frxClr _), execSeq_cons_of_exec (exec_eq_deliver .pinClr _), execSeq_nil]
  simp [State.written, State.resultOf, State.deliver, State.reset, okNone, okResult, crcInit, pinInit]

end Sys2Proof.Proofs
end
